-- ==== Sys2Proof/Word.lean ====
section
/-! DEFINITION. The word types of the GF256-BA engine: a byte (a field element, a storage byte or a character
code), the 17-bit result value, the 32-bit command and response words (spec/00_scope.md R5, R6). Every value is an
unsigned number of a stated width; nothing in this hardware is signed. -/

namespace Sys2Proof

/-- An 8-bit value: a field element (R10), a byte of STORE (R13) or a character code (R94). -/
abbrev Byte := BitVec 8

/-- A 17-bit result value: the width of RES (R20), of STATUS (R22) and of the VALUE field (R56). -/
abbrev Value := BitVec 17

/-- A 32-bit command word (R50) or response word (R56). -/
abbrev Word := BitVec 32

end Sys2Proof
end

