-- ==== Sys2Proof/Syntax.lean ====
section
/-! DEFINITION. The commands of the engine as data: one constructor of `Instr` per row of spec/opcode_table.json
(spec/30_encoding.md R53), the six formats (R51), the mnemonics (R53), and the three pseudo-instructions (R59).
The operand types carry the operand widths of R52, so every term of `Instr` is one of the commands of R55. -/

namespace Sys2Proof

/-- The six operand formats of R51. -/
inductive Format where
  /-- N: no operand. -/
  | n
  /-- G: two field elements. -/
  | g
  /-- B: one byte. -/
  | b
  /-- W: one 16-bit number. -/
  | w
  /-- WV: a 16-bit bit index and a boolean. -/
  | wv
  /-- V: a boolean. -/
  | v
  deriving DecidableEq, Repr

/-- The 22 commands of R53. -/
inductive Instr where
  /-- SYS_STATUS: read the status register (R125). -/
  | sysStatus
  /-- GF_NEW: construct the field unit (R74). -/
  | gfNew
  /-- GF_ADD a, b (R75). -/
  | gfAdd (a b : Byte)
  /-- GF_SUB a, b (R76). -/
  | gfSub (a b : Byte)
  /-- GF_MUL a, b (R77). -/
  | gfMul (a b : Byte)
  /-- GF_DIV a, b (R78). -/
  | gfDiv (a b : Byte)
  /-- GF_INV d: read the inverse table (R79). -/
  | gfInv (d : Byte)
  /-- BA_NEW_BYTES n: begin construction variant 1 (R90). -/
  | baNewBytes (n : BitVec 16)
  /-- BA_NEW_COUNT n: construction variant 2 (R92). -/
  | baNewCount (n : BitVec 16)
  /-- BA_NEW_STR n: begin construction variant 3 (R93). -/
  | baNewStr (n : BitVec 16)
  /-- BA_PUSH_BYTE d: the next byte of variant 1 (R91). -/
  | baPushByte (d : Byte)
  /-- BA_PUSH_CHAR d: the next character of variant 3 (R94). -/
  | baPushChar (d : Byte)
  /-- BA_GET n: read bit n (R95). -/
  | baGet (n : BitVec 16)
  /-- BA_SET n, v: assign bit n (R96). -/
  | baSet (n : BitVec 16) (v : Bool)
  /-- BA_XOR n, v: bit n exclusive-or v, changing nothing (R97). -/
  | baXor (n : BitVec 16) (v : Bool)
  /-- BA_SIZE: the logical size (R98). -/
  | baSize
  /-- IT_BEGIN: derive the iterator (R110). -/
  | itBegin
  /-- IT_NEXT: advance the iterator by one bit (R111). -/
  | itNext
  /-- IT_GET: read the bit at the iterator (R112). -/
  | itGet
  /-- IT_SET v: assign the bit at the iterator (R113). -/
  | itSet (v : Bool)
  /-- IT_XOR v: the bit at the iterator exclusive-or v (R114). -/
  | itXor (v : Bool)
  /-- IT_ATEND: compare the iterator with end() (R115). -/
  | itAtEnd
  deriving DecidableEq, Repr

/-- The mnemonic of a command, as the table of R53 spells it. -/
def Instr.mnemonic : Instr → String
  | .sysStatus => "SYS_STATUS"
  | .gfNew => "GF_NEW"
  | .gfAdd _ _ => "GF_ADD"
  | .gfSub _ _ => "GF_SUB"
  | .gfMul _ _ => "GF_MUL"
  | .gfDiv _ _ => "GF_DIV"
  | .gfInv _ => "GF_INV"
  | .baNewBytes _ => "BA_NEW_BYTES"
  | .baNewCount _ => "BA_NEW_COUNT"
  | .baNewStr _ => "BA_NEW_STR"
  | .baPushByte _ => "BA_PUSH_BYTE"
  | .baPushChar _ => "BA_PUSH_CHAR"
  | .baGet _ => "BA_GET"
  | .baSet _ _ => "BA_SET"
  | .baXor _ _ => "BA_XOR"
  | .baSize => "BA_SIZE"
  | .itBegin => "IT_BEGIN"
  | .itNext => "IT_NEXT"
  | .itGet => "IT_GET"
  | .itSet _ => "IT_SET"
  | .itXor _ => "IT_XOR"
  | .itAtEnd => "IT_ATEND"

/-- The pseudo-instructions of R59: each stands for a sequence of commands. -/
inductive Pseudo where
  /-- BA_STR "c0c1...": construction variant 3 as one operation; the characters as 8-bit codes. -/
  | baStr (cs : List Byte)
  /-- BA_BYTES d0, d1, ...: construction variant 1 as one operation. -/
  | baBytes (ds : List Byte)
  /-- BA_CLR n: BA_SET n, 0. -/
  | baClr (n : BitVec 16)
  deriving DecidableEq, Repr

/-- The expansion of a pseudo-instruction (R59). The length operand is the list's length; `Pseudo.wf` says when it
fits the 16-bit operand. -/
def Pseudo.expand : Pseudo → List Instr
  | .baStr cs => .baNewStr (BitVec.ofNat 16 cs.length) :: cs.map .baPushChar
  | .baBytes ds => .baNewBytes (BitVec.ofNat 16 ds.length) :: ds.map .baPushByte
  | .baClr n => [.baSet n false]

end Sys2Proof
end

