-- ==== Sys2Proof/WellFormed.lean ====
section
/-! DEFINITION. Which terms stand for something the spec gives. A command has no check of its own: "Operand values are
never illegal at decode" (spec/30_encoding.md R55), and the operand types of `Instr` hold the operand widths of R52. A
pseudo-instruction has one check each for its two streamed forms (R59). The check of a command WORD (opcode and
reserved bits, R53, R54) is `wordWellFormed` of Decode.lean, beside the opcode table it reads. -/

namespace Sys2Proof

/-- R59: BA_STR takes 0 to 65535 characters, BA_BYTES takes 0 to 8192 bytes, BA_CLR takes every index. -/
def Pseudo.wf : Pseudo → Bool
  | .baStr cs => decide (cs.length ≤ 65535)
  | .baBytes ds => decide (ds.length ≤ 8192)
  | .baClr _ => true

end Sys2Proof
end

