-- ==== Sys2Proof/Decode.lean ====
section
/-! DEFINITION. Decoding a command word (spec/30_encoding.md R50 to R55), total on every 32-bit word and rejecting by
name; the encoder, written from the same formats (R51, R60); the opcode table of R53 as data (mask and match) with the
word check that reads it; and `decodeTableWord`. A command word is one 32-bit number: the spec gives the port no byte
order (spec/20_memory.md R36). -/

namespace Sys2Proof

/-! ### Fields of a command word (R50, R52) -/

/-- cmd[31:24], the opcode (R50). -/
def cmdOpcode (w : Word) : BitVec 8 := w.extractLsb' 24 8
/-- a = cmd[15:8] (R52). -/
def cmdA (w : Word) : Byte := w.extractLsb' 8 8
/-- b = cmd[7:0] (R52). -/
def cmdB (w : Word) : Byte := w.extractLsb' 0 8
/-- d = cmd[7:0] (R52). -/
def cmdD (w : Word) : Byte := w.extractLsb' 0 8
/-- n = cmd[15:0] (R52). -/
def cmdN (w : Word) : BitVec 16 := w.extractLsb' 0 16
/-- v = cmd[16], 1 = true (R52). -/
def cmdV (w : Word) : Bool := w.getLsbD 16

/-- The reserved bits of a format, the zeros of the table of R51: each must be 0 in the word. -/
def Format.reserved : Format → Word
  | .n => 0x00FFFFFF#32
  | .g => 0x00FF0000#32
  | .b => 0x00FFFF00#32
  | .w => 0x00FF0000#32
  | .wv => 0x00FE0000#32
  | .v => 0x00FEFFFF#32

/-! ### The decoder -/

/-- The two cases of an illegal word (R54). Both raise E_ILLEGAL; the name is the model's. -/
inductive DecodeReject where
  /-- The opcode is not in the table of R53. -/
  | unassignedOpcode (op : BitVec 8)
  /-- The opcode is in the table and a reserved bit of its format is 1. -/
  | reservedBit (op : BitVec 8)
  deriving DecidableEq, Repr

/-- The command `i`, if the word has no reserved bit of the format set (R54). -/
def ofFormat (f : Format) (w : Word) (i : Instr) : Except DecodeReject Instr :=
  if w &&& f.reserved = 0#32 then .ok i else .error (.reservedBit (cmdOpcode w))

/-- R53, R54: every word selects exactly one command or is illegal. -/
def decode (w : Word) : Except DecodeReject Instr :=
  match cmdOpcode w with
  | 0x01#8 => ofFormat .n w .sysStatus
  | 0x10#8 => ofFormat .n w .gfNew
  | 0x11#8 => ofFormat .g w (.gfAdd (cmdA w) (cmdB w))
  | 0x12#8 => ofFormat .g w (.gfSub (cmdA w) (cmdB w))
  | 0x13#8 => ofFormat .g w (.gfMul (cmdA w) (cmdB w))
  | 0x14#8 => ofFormat .g w (.gfDiv (cmdA w) (cmdB w))
  | 0x15#8 => ofFormat .b w (.gfInv (cmdD w))
  | 0x20#8 => ofFormat .w w (.baNewBytes (cmdN w))
  | 0x21#8 => ofFormat .w w (.baNewCount (cmdN w))
  | 0x22#8 => ofFormat .w w (.baNewStr (cmdN w))
  | 0x23#8 => ofFormat .b w (.baPushByte (cmdD w))
  | 0x24#8 => ofFormat .b w (.baPushChar (cmdD w))
  | 0x28#8 => ofFormat .w w (.baGet (cmdN w))
  | 0x29#8 => ofFormat .wv w (.baSet (cmdN w) (cmdV w))
  | 0x2A#8 => ofFormat .wv w (.baXor (cmdN w) (cmdV w))
  | 0x2B#8 => ofFormat .n w .baSize
  | 0x30#8 => ofFormat .n w .itBegin
  | 0x31#8 => ofFormat .n w .itNext
  | 0x32#8 => ofFormat .n w .itGet
  | 0x33#8 => ofFormat .v w (.itSet (cmdV w))
  | 0x34#8 => ofFormat .v w (.itXor (cmdV w))
  | 0x35#8 => ofFormat .n w .itAtEnd
  | op => .error (.unassignedOpcode op)

/-! ### The encoder, one function per format (R51, R60) -/

/-- Format N: the opcode and 24 reserved bits. -/
def encodeN (op : BitVec 8) : Word := op ++ 0#24
/-- Format G: a in bits 15:8, b in bits 7:0. -/
def encodeG (op : BitVec 8) (a b : Byte) : Word := op ++ 0#8 ++ a ++ b
/-- Format B: d in bits 7:0. -/
def encodeB (op : BitVec 8) (d : Byte) : Word := op ++ 0#16 ++ d
/-- Format W: n in bits 15:0. -/
def encodeW (op : BitVec 8) (n : BitVec 16) : Word := op ++ 0#8 ++ n
/-- Format WV: v in bit 16, n in bits 15:0. -/
def encodeWV (op : BitVec 8) (n : BitVec 16) (v : Bool) : Word := op ++ 0#7 ++ BitVec.ofBool v ++ n
/-- Format V: v in bit 16. -/
def encodeV (op : BitVec 8) (v : Bool) : Word := op ++ 0#7 ++ BitVec.ofBool v ++ 0#16

/-- The command word of a command (R53). -/
def encode : Instr → Word
  | .sysStatus => encodeN 0x01#8
  | .gfNew => encodeN 0x10#8
  | .gfAdd a b => encodeG 0x11#8 a b
  | .gfSub a b => encodeG 0x12#8 a b
  | .gfMul a b => encodeG 0x13#8 a b
  | .gfDiv a b => encodeG 0x14#8 a b
  | .gfInv d => encodeB 0x15#8 d
  | .baNewBytes n => encodeW 0x20#8 n
  | .baNewCount n => encodeW 0x21#8 n
  | .baNewStr n => encodeW 0x22#8 n
  | .baPushByte d => encodeB 0x23#8 d
  | .baPushChar d => encodeB 0x24#8 d
  | .baGet n => encodeW 0x28#8 n
  | .baSet n v => encodeWV 0x29#8 n v
  | .baXor n v => encodeWV 0x2A#8 n v
  | .baSize => encodeN 0x2B#8
  | .itBegin => encodeN 0x30#8
  | .itNext => encodeN 0x31#8
  | .itGet => encodeN 0x32#8
  | .itSet v => encodeV 0x33#8 v
  | .itXor v => encodeV 0x34#8 v
  | .itAtEnd => encodeN 0x35#8

/-! ### The opcode table of R53 as data -/

/-- One row of the table of R53: a word selects the row when `(cmd & mask) == match`. -/
structure OpRow where
  mnemonic : String
  pattern : Word
  mask : Word
  deriving DecidableEq, Repr

/-- The system and field rows of R53. -/
def opcodeTableGf : List OpRow :=
  [⟨"SYS_STATUS", 0x01000000#32, 0xFFFFFFFF#32⟩, ⟨"GF_NEW", 0x10000000#32, 0xFFFFFFFF#32⟩,
   ⟨"GF_ADD", 0x11000000#32, 0xFFFF0000#32⟩, ⟨"GF_SUB", 0x12000000#32, 0xFFFF0000#32⟩,
   ⟨"GF_MUL", 0x13000000#32, 0xFFFF0000#32⟩, ⟨"GF_DIV", 0x14000000#32, 0xFFFF0000#32⟩,
   ⟨"GF_INV", 0x15000000#32, 0xFFFFFF00#32⟩]

/-- The array rows of R53. -/
def opcodeTableBa : List OpRow :=
  [⟨"BA_NEW_BYTES", 0x20000000#32, 0xFFFF0000#32⟩, ⟨"BA_NEW_COUNT", 0x21000000#32, 0xFFFF0000#32⟩,
   ⟨"BA_NEW_STR", 0x22000000#32, 0xFFFF0000#32⟩, ⟨"BA_PUSH_BYTE", 0x23000000#32, 0xFFFFFF00#32⟩,
   ⟨"BA_PUSH_CHAR", 0x24000000#32, 0xFFFFFF00#32⟩, ⟨"BA_GET", 0x28000000#32, 0xFFFF0000#32⟩,
   ⟨"BA_SET", 0x29000000#32, 0xFFFE0000#32⟩, ⟨"BA_XOR", 0x2A000000#32, 0xFFFE0000#32⟩,
   ⟨"BA_SIZE", 0x2B000000#32, 0xFFFFFFFF#32⟩]

/-- The iterator rows of R53. -/
def opcodeTableIt : List OpRow :=
  [⟨"IT_BEGIN", 0x30000000#32, 0xFFFFFFFF#32⟩, ⟨"IT_NEXT", 0x31000000#32, 0xFFFFFFFF#32⟩,
   ⟨"IT_GET", 0x32000000#32, 0xFFFFFFFF#32⟩, ⟨"IT_SET", 0x33000000#32, 0xFFFEFFFF#32⟩,
   ⟨"IT_XOR", 0x34000000#32, 0xFFFEFFFF#32⟩, ⟨"IT_ATEND", 0x35000000#32, 0xFFFFFFFF#32⟩]

/-- The 22 rows of R53. -/
def opcodeTable : List OpRow := opcodeTableGf ++ opcodeTableBa ++ opcodeTableIt

/-- The word selects the row (R53). -/
def OpRow.selects (r : OpRow) (w : Word) : Bool := (w &&& r.mask) == r.pattern

/-- A command word is well formed when some row of the table selects it (R53, R54). -/
def wordWellFormed (w : Word) : Bool := opcodeTable.any (·.selects w)

/-! ### The host's reading of the decoder -/

/-- The command the decoder reads from a word whose low `nbits` bits are `w`, the bits above being 0; none where it is
illegal. Bit 0 of the table's numbering is bit 0 of cmd[31:0] (R50): one 32-bit number, no byte order (R36). -/
def decodeTableWord (nbits w : Nat) : Option Instr :=
  (decode (BitVec.ofNat 32 (w % 2 ^ nbits))).toOption

end Sys2Proof
end

