-- ==== Sys2Proof/Config.lean ====
section
/-! DEFINITION. What one engine fixes and the spec leaves open: the capacity of the BitArray storage
(spec/00_scope.md R5, spec/92_eei_decisions.md D12, spec/93_implementation_defined.md U12). It is the only open
parameter: the spec has no free value (93, "There is no any value and no stuck treatment in this spec"). -/

namespace Sys2Proof

/-- The implementation parameters of an engine. `BA_CAP_BYTES` is any number from 1 to 8192 (R5); a value outside
that range is refused (U12): here it cannot be written, since a `Config` carries the two bounds. -/
structure Config where
  /-- BA_CAP_BYTES: how many bytes of STORE the engine has room for. -/
  baCapBytes : Nat
  cap_pos : 1 ≤ baCapBytes
  cap_le : baCapBytes ≤ 8192
  deriving DecidableEq, Repr

/-- The default capacity, 8192 bytes (R5). -/
def Config.default : Config := ⟨8192, by decide, by decide⟩

end Sys2Proof
end

