-- ==== Sys2Proof/Machine/State.lean ====
section
/-! DEFINITION. The state of the engine, field by field as spec/10_state.md gives it, the command port's two
transcripts (spec/43_system.md R128, spec/70_reset_and_hazards.md R157), the reasons a step can stop, and the state
after reset (R150). -/

namespace Sys2Proof.Machine

/-- `BA_STATE` (R16). -/
inductive BaState where
  /-- 0: no array constructed since reset. -/
  | none
  /-- 1: a variant 1 construction is receiving its bytes. -/
  | loadBytes
  /-- 2: a variant 3 construction is receiving its characters. -/
  | loadStr
  /-- 3: a constructed array exists. -/
  | ready
  deriving DecidableEq, Repr

/-- The eight fault codes of R130. In the spec's words a fault is a RESPONSE and a halted state, so each of these ends
in a NEXT state of the model (R126, R131), never in a `Fault`. -/
inductive ErrCode where
  /-- 1, E_ILLEGAL: the word matches no row of the opcode table. -/
  | illegal
  /-- 2, E_GF_NOT_READY. -/
  | gfNotReady
  /-- 3, E_BA_NOT_READY. -/
  | baNotReady
  /-- 4, E_BA_SEQUENCE. -/
  | baSequence
  /-- 5, E_BA_CAPACITY. -/
  | baCapacity
  /-- 6, E_BA_RANGE. -/
  | baRange
  /-- 7, E_IT_INVALID. -/
  | itInvalid
  /-- 8, E_IT_END. -/
  | itEnd
  deriving DecidableEq, Repr

/-- What the host can do to the engine (R158): give the reset event, or give one 32-bit command word. -/
inductive HostEvent where
  /-- The reset event `rst` (R150, R151). -/
  | rst
  /-- One command word (R50, R128). -/
  | cmd (w : Word)
  deriving DecidableEq, Repr

/-- Byte storage by address, in one canonical form: addresses strictly rising, no listed byte equal to what an
unlisted address reads as (`Memory.wf` in Ops.lean). -/
abbrev Memory := List Host.Cell

/-- The state. The fields `cfg`, `hostIn` and `hostOut` are the model's own (log entries 1 to 3): a parameter constant
over a run, the host's input not yet taken, and the responses given so far. Every other field is a register or a
storage of the summary table of spec/10_state.md. -/
structure State where
  /-- The implementation parameters (R5); no step changes them. -/
  cfg : Config
  /-- `inv[0..255]`, the inverse table, indexed by a field element (R11). -/
  inv : Vector Byte 256
  /-- `GF_READY` (R12). -/
  gfReady : Bool
  /-- `STORE`: the bytes at byte addresses 0 to ALLOC_BYTES - 1 (R13). -/
  store : Memory
  /-- `DATA_SIZE`, 17 bits: the logical size in bits (R14). -/
  dataSize : BitVec 17
  /-- `ALLOC_BYTES`, 14 bits: the number of bytes of STORE (R15). -/
  allocBytes : BitVec 14
  /-- `BA_STATE`, 2 bits (R16). -/
  baState : BaState
  /-- `LOAD_PTR`, 16 bits: elements received so far (R17). -/
  loadPtr : BitVec 16
  /-- `LOAD_LEN`, 16 bits: elements expected (R17). -/
  loadLen : BitVec 16
  /-- `IT_BYTE`, 14 bits: the iterator's byte address (R18). -/
  itByte : BitVec 14
  /-- `IT_OFF`, 3 bits: the iterator's bit offset (R18). -/
  itOff : BitVec 3
  /-- `IT_VALID` (R19). -/
  itValid : Bool
  /-- `RES`, 17 bits: the value of the last executed command (R20). -/
  res : Value
  /-- `ERR`: the engine is halted (R21). -/
  err : Bool
  /-- `ERR_CODE`, 4 bits (R21). -/
  errCode : BitVec 4
  /-- What the host has given to the port and the engine has not taken yet, first first (R128, R157). -/
  hostIn : List HostEvent
  /-- The responses the engine has given, first first (R128, R157). -/
  hostOut : List Word
  deriving DecidableEq, Repr

/-- Why a step can stop with a fault. The spec's own faults are next states (`ErrCode`); this is the model's guard on
storage addresses that do not exist. -/
inductive Fault where
  /-- Raised by `memRead` and `memWrite` (Ops.lean) at a byte address that is not below ALLOC_BYTES: "a byte address at
  or above ALLOC_BYTES is not part of the array, no rule reads or writes it" (R13), and R32 requires `k < ALLOC_BYTES`
  of both primitives. No state that meets `Inv` (Safety.lean) raises it. Safe: the model stops where the spec has no
  step at all. -/
  | noSuchByte (k : Nat)
  deriving DecidableEq, Repr

/-- Why a step can be refused. -/
inductive Refusal where
  /-- A command with no meaning yet, raised by a refused arm of `exec`. No arm of this model raises it. Safe. -/
  | notModelled (mnemonic : String)
  deriving DecidableEq, Repr

/-- The three outcomes of a step of this machine. -/
abbrev Result := Host.Outcome State Fault Refusal

/-- R150: every piece of state at its reset value, on an engine with the given parameters and nothing at its port. -/
def State.resetWith (cfg : Config) : State where
  cfg := cfg
  inv := Vector.replicate 256 0x00#8
  gfReady := false
  store := []
  dataSize := 0#17
  allocBytes := 0#14
  baState := .none
  loadPtr := 0#16
  loadLen := 0#16
  itByte := 0#14
  itOff := 0#3
  itValid := false
  res := 0#17
  err := false
  errCode := 0#4
  hostIn := []
  hostOut := []

/-- The machine right after reset (R150), with the default capacity (R5). -/
def State.reset : State := State.resetWith Config.default

end Sys2Proof.Machine
end

