-- ==== Sys2Proof/Machine/Flags.lean ====
section
/-! DEFINITION. The status bits and the words built from them. The engine has no condition codes (spec/10_state.md
R23); its only flag-like state is GF_READY, BA_STATE, IT_VALID, ERR and ERR_CODE, seen by the host in the STATUS view
(R22) and in the response word (spec/30_encoding.md R56). -/

namespace Sys2Proof.Machine

/-- The code of BA_STATE (R16). -/
def BaState.code : BaState → BitVec 2
  | .none => 0#2
  | .loadBytes => 1#2
  | .loadStr => 2#2
  | .ready => 3#2

/-- The code of a fault (R130). -/
def ErrCode.code : ErrCode → BitVec 4
  | .illegal => 1#4
  | .gfNotReady => 2#4
  | .baNotReady => 3#4
  | .baSequence => 4#4
  | .baCapacity => 5#4
  | .baRange => 6#4
  | .itInvalid => 7#4
  | .itEnd => 8#4

/-- R22: `STATUS = {0b00000000, ERR_CODE[3:0], ERR, IT_VALID, BA_STATE[1:0], GF_READY}`. -/
def State.status (s : State) : Value :=
  0#8 ++ s.errCode ++ BitVec.ofBool s.err ++ BitVec.ofBool s.itValid ++ s.baState.code ++ BitVec.ofBool s.gfReady

/-- R56: `rsp = {ERR, 0b000, ERR_CODE[3:0], 0b0000000, VALUE[16:0]}`. -/
def responseWord (err : Bool) (code : BitVec 4) (value : Value) : Word :=
  BitVec.ofBool err ++ 0#3 ++ code ++ 0#7 ++ value

end Sys2Proof.Machine
end

