-- ==== Sys2Proof/Machine/Operands.lean ====
section
/-! DEFINITION. What a command's operands and the iterator name: the bit-reference of an index (spec/20_memory.md R32),
the iterator's position, the end position and the linear index (spec/42_iterator.md R116), and the three forms of a
result value (spec/10_state.md R20). All index arithmetic is on natural numbers (spec/30_encoding.md R52). -/

namespace Sys2Proof.Machine

/-- A bit-reference: the pair of a byte address and a bit offset (spec/00_scope.md R9). -/
structure BitRef where
  byte : Nat
  off : BitVec 3
  deriving DecidableEq, Repr

/-- R32: bit index `i` is bit `i % 8` of the byte at byte address `i / 8`. -/
def bitRefOf (i : Nat) : BitRef := ⟨i / 8, BitVec.ofNat 3 (i % 8)⟩

/-- The iterator's position `(IT_BYTE, IT_OFF)` (R18). -/
def State.itPos (s : State) : BitRef := ⟨s.itByte.toNat, s.itOff⟩

/-- R116: `ItIndex() = 8 * IT_BYTE + IT_OFF`. -/
def State.itIndex (s : State) : Nat := 8 * s.itByte.toNat + s.itOff.toNat

/-- R116: `End() = (DATA_SIZE / 8, DATA_SIZE % 8)`. -/
def State.endPos (s : State) : BitRef := bitRefOf s.dataSize.toNat

/-- R92, R93: the byte count of variants 2 and 3 for `n` bits. -/
def countedBytes (n : BitVec 16) : Nat := n.toNat / 8 + 1

/-- A field element as a result value: `zext_17`, bits 7:0 (R20). -/
def byteValue (b : Byte) : Value := b.setWidth 17

/-- A boolean as a result value: `zext_17`, bit 0 (R20). -/
def boolValue (b : Bool) : Value := (BitVec.ofBool b).setWidth 17

/-- The code of the character '1' in the string variant: 0x31 (R94; the spec's own presumption K1, log entry 9). -/
def charOne : Byte := 0x31#8

end Sys2Proof.Machine
end

