-- ==== Sys2Proof/Machine/Ops.lean ====
section
/-! DEFINITION. The operations every command shares: the byte storage and its canonical form, the byte and bit
primitives (spec/20_memory.md R32 to R34), the response (spec/30_encoding.md R56), taking a fault (spec/60_exceptions.md
R131), dropping a command in the halted state (R132), completing a command (spec/43_system.md R126), and the reset
event, the only return from the halted state (R133, spec/70_reset_and_hazards.md R150). -/

namespace Sys2Proof.Machine

/-! ### Byte storage -/

/-- What an unlisted address reads as: 0x00, since every construction fills its bytes with zero (R90, R92, R93). -/
def unlistedByte : Byte := 0x00#8

/-- The byte at an address. -/
def Memory.read : Memory → Nat → Byte
  | [], _ => unlistedByte
  | (a, b) :: m, k => if k = a then b else Memory.read m k

/-- Write one byte, keeping the canonical form. -/
def Memory.write : Memory → Nat → Byte → Memory
  | [], k, v => if v = unlistedByte then [] else [(k, v)]
  | (a, b) :: m, k, v =>
    if k < a then (if v = unlistedByte then (a, b) :: m else (k, v) :: (a, b) :: m)
    else if k = a then (if v = unlistedByte then m else (k, v) :: m)
    else (a, b) :: Memory.write m k v

/-- Every listed address is at least `lo`, the addresses rise strictly, and no listed byte is the unlisted one. -/
def Memory.wfFrom : Nat → Memory → Bool
  | _, [] => true
  | lo, (a, b) :: m => decide (lo ≤ a) && decide (b ≠ unlistedByte) && Memory.wfFrom (a + 1) m

/-- The canonical form. -/
def Memory.wf (m : Memory) : Bool := Memory.wfFrom 0 m

/-- The storage of a construction right after its zero fill: `MemWrite(k, 1, 0x00)` at every byte (R90, R92, R93).
Nothing is listed, so every byte reads 0x00; the bytes of the array before it are gone (R100). -/
def zeroFilled : Memory := []

/-! ### The byte and bit primitives -/

/-- `MemRead(k, 1)` (R32), for `k < ALLOC_BYTES`. -/
def memRead (s : State) (k : Nat) : Except Fault Byte :=
  if k < s.allocBytes.toNat then .ok (s.store.read k) else .error (.noSuchByte k)

/-- `MemWrite(k, 1, v)` (R32), for `k < ALLOC_BYTES`. -/
def memWrite (s : State) (k : Nat) (v : Byte) : Except Fault State :=
  if k < s.allocBytes.toNat then .ok { s with store := s.store.write k v } else .error (.noSuchByte k)

/-- The single-bit mask `1 << o` (R32). -/
def bitMask (o : BitVec 3) : Byte := 1#8 <<< o.toNat

/-- `BitRead(k, o)` (R33): the masked bit is nonzero. -/
def bitRead (s : State) (r : BitRef) : Except Fault Bool :=
  match memRead s r.byte with
  | .ok b => .ok (b &&& bitMask r.off != 0#8)
  | .error f => .error f

/-- `BitWrite(k, o, v)` (R34): OR with the mask sets the bit, AND with the mask's complement clears it. -/
def bitWrite (s : State) (r : BitRef) (v : Bool) : Except Fault State :=
  match memRead s r.byte with
  | .ok old => memWrite s r.byte (if v then old ||| bitMask r.off else old &&& ~~~bitMask r.off)
  | .error f => .error f

/-! ### The end of a command -/

/-- Give the response to the host: ERR and ERR_CODE as they are now, and VALUE (R56, R126). -/
def State.respond (s : State) (value : Value) : State :=
  { s with hostOut := s.hostOut ++ [responseWord s.err s.errCode value] }

/-- Taking a fault (R131): ERR and ERR_CODE are set, VALUE is 0, nothing else is written. There is no handler, no
vector and nothing saved; the engine is halted from here on. -/
def takeFault (c : ErrCode) (s : State) : State :=
  State.respond { s with err := true, errCode := c.code } 0#17

/-- Dropping a command in the halted state (R132): no state changes, VALUE is 0. -/
def dropCommand (s : State) : State := s.respond 0#17

/-- Completing a command (R126, R20): RES takes the value and the response carries it. -/
def finish (value : Value) (s : State) : State := State.respond { s with res := value } value

/-- R126: while ERR = 1 a command other than SYS_STATUS is dropped. -/
def unlessHalted (s : State) (k : Result) : Result :=
  if s.err then .next (dropCommand s) else k

/-- One check of a command's rule: if it does not hold, `raise Fault(c)` (R131). -/
def require (p : Prop) [Decidable p] (c : ErrCode) (s : State) (k : Result) : Result :=
  if p then k else .next (takeFault c s)

/-- Go on with what a storage primitive answers. -/
def andThen {α : Type} (x : Except Fault α) (k : α → Result) : Result :=
  match x with
  | .ok a => k a
  | .error f => .fault f

/-! ### Reset -/

/-- The reset event (R150, R151): every piece of the engine's state takes its reset value. The parameters stay, and so
do the two transcripts, which are the host's and not the engine's. -/
def takeReset (s : State) : State :=
  { State.resetWith s.cfg with hostIn := s.hostIn, hostOut := s.hostOut }

end Sys2Proof.Machine
end

