-- ==== Sys2Proof/Machine/BitArray.lean ====
section
/-! DEFINITION. Unit BA, construction and indexed access (spec/41_bitarray.md): BA_NEW_BYTES, BA_PUSH_BYTE,
BA_NEW_COUNT, BA_NEW_STR, BA_PUSH_CHAR, BA_GET, BA_SET, BA_XOR, BA_SIZE (R90 to R98). -/

namespace Sys2Proof.Machine

/-! ### Construction -/

/-- What the three construction commands share (R90, R92, R93): the sizes, the zero fill, the load registers, the
iterator invalidated, the new BA_STATE. IT_BYTE and IT_OFF are not written. -/
def construct (alloc bits len : Nat) (st : BaState) (s : State) : State :=
  { s with
    allocBytes := BitVec.ofNat 14 alloc
    dataSize := BitVec.ofNat 17 bits
    store := zeroFilled
    loadLen := BitVec.ofNat 16 len
    loadPtr := 0#16
    itValid := false
    baState := st }

/-- BA_NEW_BYTES n (R90): `n` bytes, `8 * n` bits; READY at once when `n` is 0. -/
def execBaNewBytes (n : BitVec 16) (s : State) : Result :=
  unlessHalted s <|
  require (n.toNat ≤ s.cfg.baCapBytes) .baCapacity s <|
  .next (finish 0#17 (construct n.toNat (8 * n.toNat) n.toNat (if n = 0#16 then .ready else .loadBytes) s))

/-- BA_NEW_COUNT n (R92): `n/8 + 1` bytes, `n` bits, READY. -/
def execBaNewCount (n : BitVec 16) (s : State) : Result :=
  unlessHalted s <|
  require (countedBytes n ≤ s.cfg.baCapBytes) .baCapacity s <|
  .next (finish 0#17 (construct (countedBytes n) n.toNat 0 .ready s))

/-- BA_NEW_STR n (R93): sized as BA_NEW_COUNT, expecting `n` characters; READY at once when `n` is 0. -/
def execBaNewStr (n : BitVec 16) (s : State) : Result :=
  unlessHalted s <|
  require (countedBytes n ≤ s.cfg.baCapBytes) .baCapacity s <|
  .next (finish 0#17 (construct (countedBytes n) n.toNat n.toNat (if n = 0#16 then .ready else .loadStr) s))

/-- The end of a push (R91, R94): LOAD_PTR counts the element, and the last one makes the array READY. -/
def advanceLoad (s : State) : State :=
  { s with
    loadPtr := s.loadPtr + 1#16
    baState := if s.loadPtr + 1#16 = s.loadLen then .ready else s.baState }

/-- BA_PUSH_BYTE d (R91): the whole byte at byte address LOAD_PTR. -/
def execBaPushByte (d : Byte) (s : State) : Result :=
  unlessHalted s <|
  require (s.baState = .loadBytes) .baSequence s <|
  andThen (memWrite s s.loadPtr.toNat d) fun s' => .next (finish 0#17 (advanceLoad s'))

/-- BA_PUSH_CHAR d (R94): bit LOAD_PTR is true exactly when the character is '1'. -/
def execBaPushChar (d : Byte) (s : State) : Result :=
  unlessHalted s <|
  require (s.baState = .loadStr) .baSequence s <|
  andThen (bitWrite s (bitRefOf s.loadPtr.toNat) (d == charOne)) fun s' => .next (finish 0#17 (advanceLoad s'))

/-! ### Indexed access -/

/-- The checks of an indexed access, in the order of R95 to R97: READY, then `n < DATA_SIZE` (R35). -/
def indexed (n : BitVec 16) (s : State) (k : Result) : Result :=
  unlessHalted s <|
  require (s.baState = .ready) .baNotReady s <|
  require (n.toNat < s.dataSize.toNat) .baRange s k

/-- BA_GET n (R95). -/
def execBaGet (n : BitVec 16) (s : State) : Result :=
  indexed n s <| andThen (bitRead s (bitRefOf n.toNat)) fun b => .next (finish (boolValue b) s)

/-- BA_SET n, v (R96). -/
def execBaSet (n : BitVec 16) (v : Bool) (s : State) : Result :=
  indexed n s <| andThen (bitWrite s (bitRefOf n.toNat) v) fun s' => .next (finish 0#17 s')

/-- BA_XOR n, v (R97): STORE is not changed. -/
def execBaXor (n : BitVec 16) (v : Bool) (s : State) : Result :=
  indexed n s <| andThen (bitRead s (bitRefOf n.toNat)) fun b => .next (finish (boolValue (b ^^ v)) s)

/-- BA_SIZE (R98): DATA_SIZE, 17 bits. -/
def execBaSize (s : State) : Result :=
  unlessHalted s <|
  require (s.baState = .ready) .baNotReady s <|
  .next (finish s.dataSize s)

end Sys2Proof.Machine
end

