-- ==== Sys2Proof/Machine/Gf.lean ====
section
/-! DEFINITION. Unit GF (spec/40_gf256.md): the four pure functions of R70 to R73 and the commands GF_NEW, GF_ADD,
GF_SUB, GF_MUL, GF_DIV, GF_INV (R74 to R79). The two units share nothing but RES, ERR and ERR_CODE (R85). -/

namespace Sys2Proof.Machine

/-! ### The functions -/

/-- R70: addition is exclusive-or. -/
def gfAdd (a b : Byte) : Byte := a ^^^ b

/-- R70: subtraction equals addition. -/
def gfSub (a b : Byte) : Byte := a ^^^ b

/-- The reduction constant 0x1B of x^8 + x^4 + x^3 + x + 1 (R5, R83). -/
def reductionConstant : Byte := 0x1B#8

/-- R71: `a` shifted left one bit, truncated to 8 bits, with the reduction constant exclusive-or'ed in when the bit
that overflowed out of the top was set. -/
def xtime (a : Byte) : Byte := if a.getLsbD 7 then (a <<< 1) ^^^ reductionConstant else a <<< 1

/-- The iterations of R71, `k` of them: working copies `a`, `b` and the running product `p`. -/
def gfMulLoop : Nat → Byte → Byte → Byte → Byte
  | 0, _, _, p => p
  | k + 1, a, b, p => gfMulLoop k (xtime a) (b >>> 1) (if b.getLsbD 0 then p ^^^ a else p)

/-- R71: eight iterations, the running product starting at 0. -/
def gfMul (a b : Byte) : Byte := gfMulLoop 8 a b 0x00#8

/-- `inv[a]`: any 8-bit index is in the table (R45). -/
def invRead (t : Vector Byte 256) (a : Byte) : Byte := t[a.toNat]'a.isLt

/-- `inv[a] <- v`. -/
def invWrite (t : Vector Byte 256) (a v : Byte) : Vector Byte 256 := t.set a.toNat v a.isLt

/-- R72: 0 when either operand is 0, `inv[b]` when `a` is 1, else the product with `inv[b]`. -/
def gfDiv (t : Vector Byte 256) (a b : Byte) : Byte :=
  if a = 0x00#8 ∨ b = 0x00#8 then 0x00#8
  else if a = 0x01#8 then invRead t b
  else gfMul a (invRead t b)

/-- The byte values 1 to 255 in ascending order, the range of both loops of R73. -/
def bytesFromOne : List Byte := (List.range' 1 255).map (BitVec.ofNat 8)

/-- The inner loop of R73 for one `a`: scan every `b` from 1 to 255 with no early exit, and record a pair whenever
the product is 1. -/
def scanInverse (t : Vector Byte 256) (a : Byte) : Vector Byte 256 :=
  bytesFromOne.foldl (fun t b => if gfMul a b = 0x01#8 then invWrite (invWrite t a b) b a else t) t

/-- `build_inv()` (R73): zero the table, then for every `a` from 1 to 255 scan unless `inv[a]` is populated.
Irreducible, since 65025 products are no work for an elaborator that compares two states: a proof about the table
unfolds it by name. -/
@[irreducible] def buildInv : Vector Byte 256 :=
  bytesFromOne.foldl (fun t a => if invRead t a ≠ 0x00#8 then t else scanInverse t a)
    (Vector.replicate 256 0x00#8)

/-! ### The commands -/

/-- GF_NEW (R74): build the table, whatever GF_READY is. -/
def execGfNew (s : State) : Result :=
  unlessHalted s <|
  .next (finish 0#17 { s with inv := buildInv, gfReady := true })

/-- The shape of the five value commands: they need GF_READY (R75 to R79) and return a byte. -/
def gfValue (s : State) (value : Byte) : Result :=
  unlessHalted s <|
  require (s.gfReady = true) .gfNotReady s <|
  .next (finish (byteValue value) s)

/-- GF_ADD a, b (R75). -/
def execGfAdd (a b : Byte) (s : State) : Result := gfValue s (gfAdd a b)

/-- GF_SUB a, b (R76). -/
def execGfSub (a b : Byte) (s : State) : Result := gfValue s (gfSub a b)

/-- GF_MUL a, b (R77). -/
def execGfMul (a b : Byte) (s : State) : Result := gfValue s (gfMul a b)

/-- GF_DIV a, b (R78): no divide-by-zero fault exists. -/
def execGfDiv (a b : Byte) (s : State) : Result := gfValue s (gfDiv s.inv a b)

/-- GF_INV d (R79). -/
def execGfInv (d : Byte) (s : State) : Result := gfValue s (invRead s.inv d)

end Sys2Proof.Machine
end

