-- ==== Sys2Proof/Machine/Iterator.lean ====
section
/-! DEFINITION. Unit BA, the one iterator (spec/42_iterator.md): IT_BEGIN, IT_NEXT, IT_GET, IT_SET, IT_XOR, IT_ATEND
(R110 to R115), with End() and ItIndex() of R116 from Operands.lean. -/

namespace Sys2Proof.Machine

/-- IT_BEGIN (R110): bit 0 of the first byte. -/
def execItBegin (s : State) : Result :=
  unlessHalted s <|
  require (s.baState = .ready) .baNotReady s <|
  .next (finish 0#17 { s with itByte := 0#14, itOff := 0#3, itValid := true })

/-- The checks every other iterator command makes first, in the order of R111 to R115: READY, then IT_VALID. -/
def withIterator (s : State) (k : Result) : Result :=
  unlessHalted s <|
  require (s.baState = .ready) .baNotReady s <|
  require (s.itValid = true) .itInvalid s k

/-- The increment of R111: the working value `IT_OFF + 1` is 1 to 8, and 8 rolls over to the next byte. -/
def advanceIterator (s : State) : State :=
  { s with
    itByte := if s.itOff.toNat + 1 = 8 then s.itByte + 1#14 else s.itByte
    itOff := if s.itOff.toNat + 1 = 8 then 0#3 else BitVec.ofNat 3 (s.itOff.toNat + 1) }

/-- IT_NEXT (R111): advance by one bit, unless the iterator is at End(). -/
def execItNext (s : State) : Result :=
  withIterator s <|
  require (s.itPos ≠ s.endPos) .itEnd s <|
  .next (finish 0#17 (advanceIterator s))

/-- The range check of R112 to R114: `ItIndex() < DATA_SIZE` (R35). -/
def atIterator (s : State) (k : Result) : Result :=
  withIterator s <| require (s.itIndex < s.dataSize.toNat) .baRange s k

/-- IT_GET (R112). -/
def execItGet (s : State) : Result :=
  atIterator s <| andThen (bitRead s s.itPos) fun b => .next (finish (boolValue b) s)

/-- IT_SET v (R113): the position does not move. -/
def execItSet (v : Bool) (s : State) : Result :=
  atIterator s <| andThen (bitWrite s s.itPos v) fun s' => .next (finish 0#17 s')

/-- IT_XOR v (R114): STORE is not changed. -/
def execItXor (v : Bool) (s : State) : Result :=
  atIterator s <| andThen (bitRead s s.itPos) fun b => .next (finish (boolValue (b ^^ v)) s)

/-- IT_ATEND (R115, R117): both components equal those of End(). -/
def execItAtEnd (s : State) : Result :=
  withIterator s <| .next (finish (boolValue (decide (s.itPos = s.endPos))) s)

end Sys2Proof.Machine
end

