-- ==== Sys2Proof/Machine/System.lean ====
section
/-! DEFINITION. The system command SYS_STATUS (spec/43_system.md R125), an illegal command word (spec/30_encoding.md
R54), and an idle port (R128). -/

namespace Sys2Proof.Machine

/-- SYS_STATUS (R125): answers STATUS, halted or not, and writes nothing, not even RES. -/
def execSysStatus (s : State) : Result := .next (s.respond s.status)

/-- A command word that decodes to no command: E_ILLEGAL (R54), or dropped in the halted state (R126, R132). -/
def execIllegal (s : State) : Result := unlessHalted s <| .next (takeFault .illegal s)

/-- No command at the port: "the engine does nothing in between (no state changes while no command executes)" (R128). -/
def idle (s : State) : Result := .next s

end Sys2Proof.Machine
end

