-- ==== Sys2Proof/Machine/Dispatch.lean ====
section
/-! DEFINITION. One arm per command: the execution of one well-formed command word (spec/43_system.md R126). -/

namespace Sys2Proof.Machine

def exec (i : Instr) (s : State) : Host.Outcome State Fault Refusal :=
  match i with
  | .sysStatus => Sys2Proof.Machine.execSysStatus s
  | .gfNew => Sys2Proof.Machine.execGfNew s
  | .gfAdd a b => Sys2Proof.Machine.execGfAdd a b s
  | .gfSub a b => Sys2Proof.Machine.execGfSub a b s
  | .gfMul a b => Sys2Proof.Machine.execGfMul a b s
  | .gfDiv a b => Sys2Proof.Machine.execGfDiv a b s
  | .gfInv d => Sys2Proof.Machine.execGfInv d s
  | .baNewBytes n => Sys2Proof.Machine.execBaNewBytes n s
  | .baNewCount n => Sys2Proof.Machine.execBaNewCount n s
  | .baNewStr n => Sys2Proof.Machine.execBaNewStr n s
  | .baPushByte d => Sys2Proof.Machine.execBaPushByte d s
  | .baPushChar d => Sys2Proof.Machine.execBaPushChar d s
  | .baGet n => Sys2Proof.Machine.execBaGet n s
  | .baSet n v => Sys2Proof.Machine.execBaSet n v s
  | .baXor n v => Sys2Proof.Machine.execBaXor n v s
  | .baSize => Sys2Proof.Machine.execBaSize s
  | .itBegin => Sys2Proof.Machine.execItBegin s
  | .itNext => Sys2Proof.Machine.execItNext s
  | .itGet => Sys2Proof.Machine.execItGet s
  | .itSet v => Sys2Proof.Machine.execItSet v s
  | .itXor v => Sys2Proof.Machine.execItXor v s
  | .itAtEnd => Sys2Proof.Machine.execItAtEnd s

end Sys2Proof.Machine
end

