-- ==== Sys2Proof/Machine/Step.lean ====
section
/-! DEFINITION. One step of the engine (spec/43_system.md R126, R128): take the first thing the host has given to the
port, a reset event or one command word, and carry it out whole. The engine has no program counter and fetches nothing
(spec/10_state.md R25): `withFetchWord` gives the word to the port. -/

namespace Sys2Proof.Machine

/-- One step. A command word is executed atomically: decoded, checked, carried out and answered (R126). -/
def step (s : State) : Host.Outcome State Fault Refusal :=
  match s.hostIn with
  | [] => idle s
  | .rst :: rest => .next (takeReset { s with hostIn := rest })
  | .cmd w :: rest =>
    match decode w with
    | .ok i => exec i { s with hostIn := rest }
    | .error _ => execIllegal { s with hostIn := rest }

/-- `s` with the command word `w` (its low `nbits` bits) as the next thing at the command port. -/
def State.withFetchWord (s : State) (nbits w : Nat) : State :=
  { s with hostIn := .cmd (BitVec.ofNat 32 (w % 2 ^ nbits)) :: s.hostIn }

end Sys2Proof.Machine
end

