-- ==== Sys2Proof/Machine/Asm.lean ====
section
/-! DEFINITION. The textual form of a command (spec/30_encoding.md R58) and of the three pseudo-instructions (R59): one
line read into what it stands for, and a command written as a line. The text is a list of characters. What R58 leaves
open (white space, the case of hexadecimal digits, other spellings of a number or boolean, other characters) is log
entry 11. -/

namespace Sys2Proof.Machine

/-! ### Lexing a line -/

/-- What a line is made of. -/
inductive Tok where
  /-- A mnemonic or a number. -/
  | word (cs : List Char)
  /-- The comma between two operands. -/
  | comma
  /-- A character in single quotes. -/
  | chr (c : Char)
  /-- A string in double quotes, of BA_STR. -/
  | str (cs : List Char)
  deriving DecidableEq, Repr

/-- The characters of mnemonics and numbers. -/
def wordChar (c : Char) : Bool := c.isAlphanum || c == '_'

/-- End the word being read, whose characters are held last first. -/
def flushWord (w : List Char) (ts : List Tok) : List Tok :=
  if w = [] then ts else .word w.reverse :: ts

/-- Read a line into tokens. `w` holds the word being read and `q` the string being read, each last character first.
`;` outside quotes starts a comment (R58). -/
def lexLine : List Char → List Char → Option (List Char) → Option (List Tok)
  | [], w, none => some (flushWord w [])
  | [], _, some _ => none
  | '"' :: cs, w, none => (lexLine cs [] (some [])).map (flushWord w)
  | '"' :: cs, _, some q => (lexLine cs [] none).map (.str q.reverse :: ·)
  | c :: cs, w, some q => lexLine cs w (some (c :: q))
  | ';' :: _, w, none => some (flushWord w [])
  | ',' :: cs, w, none => (lexLine cs [] none).map (flushWord w <| .comma :: ·)
  | ' ' :: cs, w, none => (lexLine cs [] none).map (flushWord w)
  | '\t' :: cs, w, none => (lexLine cs [] none).map (flushWord w)
  | '\'' :: c :: '\'' :: cs, w, none => (lexLine cs [] none).map (flushWord w <| .chr c :: ·)
  | c :: cs, w, none => if wordChar c then lexLine cs (c :: w) none else none

/-! ### Numbers and operands -/

/-- The value of a digit character, hexadecimal in either case. -/
def digitValue (c : Char) : Option Nat :=
  if '0' ≤ c ∧ c ≤ '9' then some (c.toNat - 48)
  else if 'A' ≤ c ∧ c ≤ 'F' then some (c.toNat - 55)
  else if 'a' ≤ c ∧ c ≤ 'f' then some (c.toNat - 87)
  else none

/-- Digits of a base, most significant first, after the value `acc`. -/
def digits (base : Nat) : List Char → Nat → Option Nat
  | [], acc => some acc
  | c :: cs, acc =>
    match digitValue c with
    | some d => if d < base then digits base cs (acc * base + d) else none
    | none => none

/-- "A number is decimal or `0x` hexadecimal" (R58). -/
def readNumber : List Char → Option Nat
  | [] => none
  | ['0', 'x'] => none
  | '0' :: 'x' :: cs => digits 16 cs 0
  | cs => digits 10 cs 0

/-- An operand as it is written. -/
inductive Operand where
  /-- A number. -/
  | num (n : Nat)
  /-- A character in single quotes (R58). -/
  | chr (c : Char)
  /-- A string in double quotes (R59). -/
  | str (cs : List Char)
  deriving DecidableEq, Repr

/-- One operand. -/
def readOperand : Tok → Option Operand
  | .word cs => (readNumber cs).map .num
  | .chr c => some (.chr c)
  | .str cs => some (.str cs)
  | .comma => none

/-- Operands separated by commas (R58). -/
def readOperands : List Tok → Option (List Operand)
  | [] => some []
  | [t] => (readOperand t).map ([·])
  | t :: .comma :: t' :: ts =>
    match readOperand t, readOperands (t' :: ts) with
    | some o, some os => some (o :: os)
    | _, _ => none
  | _ :: _ => none

/-- An 8-bit operand, if the number fits (R52). -/
def byteOperand (n : Nat) : Option Byte := if n < 256 then some (BitVec.ofNat 8 n) else none
/-- A 16-bit operand, if the number fits (R52). -/
def wordOperand (n : Nat) : Option (BitVec 16) := if n < 65536 then some (BitVec.ofNat 16 n) else none
/-- "A boolean is `0` or `1`" (R58). DESIGN CHOICE (log entry 11): it is the number that is 0 or 1, so every spelling of
that number which R58 allows (`01`, `0x1`, `0x0000`) is a boolean too; R58 does not say that only the bare text is. -/
def boolOperand : Nat → Option Bool
  | 0 => some false
  | 1 => some true
  | _ => none
/-- The 8-bit code of a character. R58 gives it for '1' and '0'; DESIGN CHOICE (log entry 11) for every other one. -/
def charOperand (c : Char) : Option Byte := byteOperand c.toNat

/-- The byte operands of BA_BYTES (R59). -/
def byteOperands : List Operand → Option (List Byte)
  | [] => some []
  | .num n :: os =>
    match byteOperand n, byteOperands os with
    | some d, some ds => some (d :: ds)
    | _, _ => none
  | _ :: _ => none

/-- The characters of a BA_STR string (R59). -/
def charOperands : List Char → Option (List Byte)
  | [] => some []
  | c :: cs =>
    match charOperand c, charOperands cs with
    | some d, some ds => some (d :: ds)
    | _, _ => none

/-! ### A line -/

/-- What one line stands for. -/
inductive Line where
  /-- Nothing, or a comment only. -/
  | blank
  /-- A command. -/
  | command (i : Instr)
  /-- A pseudo-instruction. -/
  | pseudo (p : Pseudo)
  deriving DecidableEq, Repr

/-- A command of format G. -/
def lineG (f : Byte → Byte → Instr) : List Operand → Option Line
  | [.num a, .num b] =>
    match byteOperand a, byteOperand b with
    | some a, some b => some (.command (f a b))
    | _, _ => none
  | _ => none
/-- A command of format B. -/
def lineB (f : Byte → Instr) : List Operand → Option Line
  | [.num d] => (byteOperand d).map (.command <| f ·)
  | _ => none
/-- A command of format B whose operand may be a character. -/
def lineChar (f : Byte → Instr) : List Operand → Option Line
  | [.chr c] => (charOperand c).map (.command <| f ·)
  | os => lineB f os
/-- A command of format W. -/
def lineW (f : BitVec 16 → Instr) : List Operand → Option Line
  | [.num n] => (wordOperand n).map (.command <| f ·)
  | _ => none
/-- A command of format WV. -/
def lineWV (f : BitVec 16 → Bool → Instr) : List Operand → Option Line
  | [.num n, .num v] =>
    match wordOperand n, boolOperand v with
    | some n, some v => some (.command (f n v))
    | _, _ => none
  | _ => none
/-- A command of format V. -/
def lineV (f : Bool → Instr) : List Operand → Option Line
  | [.num v] => (boolOperand v).map (.command <| f ·)
  | _ => none
/-- A command of format N. -/
def lineN (i : Instr) : List Operand → Option Line
  | [] => some (.command i)
  | _ => none

/-- A pseudo-instruction, if it is well formed (R59). -/
def linePseudo (p : Pseudo) : Option Line := if p.wf then some (.pseudo p) else none

/-- The mnemonics of R53 with their operands in the order of its operands column, and those of R59. -/
def buildLine (m : String) (os : List Operand) : Option Line :=
  match m with
  | "SYS_STATUS" => lineN .sysStatus os
  | "GF_NEW" => lineN .gfNew os
  | "GF_ADD" => lineG .gfAdd os
  | "GF_SUB" => lineG .gfSub os
  | "GF_MUL" => lineG .gfMul os
  | "GF_DIV" => lineG .gfDiv os
  | "GF_INV" => lineB .gfInv os
  | "BA_NEW_BYTES" => lineW .baNewBytes os
  | "BA_NEW_COUNT" => lineW .baNewCount os
  | "BA_NEW_STR" => lineW .baNewStr os
  | "BA_PUSH_BYTE" => lineB .baPushByte os
  | "BA_PUSH_CHAR" => lineChar .baPushChar os
  | "BA_GET" => lineW .baGet os
  | "BA_SET" => lineWV .baSet os
  | "BA_XOR" => lineWV .baXor os
  | "BA_SIZE" => lineN .baSize os
  | "IT_BEGIN" => lineN .itBegin os
  | "IT_NEXT" => lineN .itNext os
  | "IT_GET" => lineN .itGet os
  | "IT_SET" => lineV .itSet os
  | "IT_XOR" => lineV .itXor os
  | "IT_ATEND" => lineN .itAtEnd os
  | "BA_STR" =>
    match os with
    | [.str cs] => (charOperands cs).bind (linePseudo <| .baStr ·)
    | _ => none
  | "BA_BYTES" => (byteOperands os).bind (linePseudo <| .baBytes ·)
  | "BA_CLR" =>
    match os with
    | [.num n] => (wordOperand n).bind (linePseudo <| .baClr ·)
    | _ => none
  | _ => none

/-- Read one line (R58); none where it is not one. -/
def readLine (cs : List Char) : Option Line :=
  match lexLine cs [] none with
  | some [] => some .blank
  | some (.word m :: ts) => (readOperands ts).bind (buildLine (String.ofList m))
  | _ => none

/-- The commands a line stands for, a pseudo-instruction expanded (R59). -/
def Line.commands : Line → List Instr
  | .blank => []
  | .command i => [i]
  | .pseudo p => p.expand

/-! ### Writing a command -/

/-- A hexadecimal digit. -/
def hexDigit (d : BitVec 4) : Char :=
  if d.toNat < 10 then Char.ofNat (48 + d.toNat) else Char.ofNat (55 + d.toNat)

/-- A byte as `0x` and two digits. -/
def byteText (b : Byte) : List Char :=
  ['0', 'x', hexDigit (b.extractLsb' 4 4), hexDigit (b.extractLsb' 0 4)]

/-- A 16-bit number as `0x` and four digits. -/
def wordText (n : BitVec 16) : List Char :=
  ['0', 'x', hexDigit (n.extractLsb' 12 4), hexDigit (n.extractLsb' 8 4), hexDigit (n.extractLsb' 4 4),
   hexDigit (n.extractLsb' 0 4)]

/-- A boolean as `0` or `1`. -/
def boolText (v : Bool) : List Char := if v then ['1'] else ['0']

/-- The operands of a command in the order of R53's operands column. -/
def operandText : Instr → List Char
  | .sysStatus | .gfNew | .baSize | .itBegin | .itNext | .itGet | .itAtEnd => []
  | .gfAdd a b | .gfSub a b | .gfMul a b | .gfDiv a b => ' ' :: byteText a ++ [',', ' '] ++ byteText b
  | .gfInv d | .baPushByte d | .baPushChar d => ' ' :: byteText d
  | .baNewBytes n | .baNewCount n | .baNewStr n | .baGet n => ' ' :: wordText n
  | .baSet n v | .baXor n v => ' ' :: wordText n ++ [',', ' '] ++ boolText v
  | .itSet v | .itXor v => ' ' :: boolText v

/-- A command as a line of text (R58). -/
def lineText (i : Instr) : List Char := i.mnemonic.toList ++ operandText i

end Sys2Proof.Machine
end

