-- ==== Sys2Proof/Safety.lean ====
section
/-! DEFINITION. What a run of the engine that is safe means, and the words the statements use: the invariant of
spec/10_state.md R27, the bits beyond DATA_SIZE (spec/20_memory.md R31), the end of a run (spec/70_reset_and_hazards.md
R157), the table of spec/95_test_vectors.md section 3, and the host's sequences of commands. -/

namespace Sys2Proof

/-! ### Groups of commands -/

/-- The commands of unit GF (R85). -/
def Instr.isGf : Instr → Bool
  | .gfNew | .gfAdd _ _ | .gfSub _ _ | .gfMul _ _ | .gfDiv _ _ | .gfInv _ => true
  | _ => false

/-- The three construction commands (R100). -/
def Instr.isConstruction : Instr → Bool
  | .baNewBytes _ | .baNewCount _ | .baNewStr _ => true
  | _ => false

/-- The commands that write STORE (R38): the constructions, the pushes and the two bit writes. -/
def Instr.writesStore : Instr → Bool
  | .baNewBytes _ | .baNewCount _ | .baNewStr _ | .baPushByte _ | .baPushChar _ | .baSet _ _ | .itSet _ => true
  | _ => false

/-- The ten commands that need BA_STATE = READY (R130, row 3). -/
def Instr.needsArray : Instr → Bool
  | .baGet _ | .baSet _ _ | .baXor _ _ | .baSize | .itBegin | .itNext | .itGet | .itSet _ | .itXor _ | .itAtEnd => true
  | _ => false

/-- The five commands that need IT_VALID = 1 (R130, row 7). -/
def Instr.needsIterator : Instr → Bool
  | .itNext | .itGet | .itSet _ | .itXor _ | .itAtEnd => true
  | _ => false

end Sys2Proof

namespace Sys2Proof.Machine

/-! ### The inverse table as the spec lists it -/

/-- The 256 entries of spec/95_test_vectors.md section 3, row by row: written out from the spec's list, not computed. -/
def invListedNat : List Nat :=
   [0x00, 0x01, 0x8D, 0xF6, 0xCB, 0x52, 0x7B, 0xD1, 0xE8, 0x4F, 0x29, 0xC0, 0xB0, 0xE1, 0xE5, 0xC7] ++
   [0x74, 0xB4, 0xAA, 0x4B, 0x99, 0x2B, 0x60, 0x5F, 0x58, 0x3F, 0xFD, 0xCC, 0xFF, 0x40, 0xEE, 0xB2] ++
   [0x3A, 0x6E, 0x5A, 0xF1, 0x55, 0x4D, 0xA8, 0xC9, 0xC1, 0x0A, 0x98, 0x15, 0x30, 0x44, 0xA2, 0xC2] ++
   [0x2C, 0x45, 0x92, 0x6C, 0xF3, 0x39, 0x66, 0x42, 0xF2, 0x35, 0x20, 0x6F, 0x77, 0xBB, 0x59, 0x19] ++
   [0x1D, 0xFE, 0x37, 0x67, 0x2D, 0x31, 0xF5, 0x69, 0xA7, 0x64, 0xAB, 0x13, 0x54, 0x25, 0xE9, 0x09] ++
   [0xED, 0x5C, 0x05, 0xCA, 0x4C, 0x24, 0x87, 0xBF, 0x18, 0x3E, 0x22, 0xF0, 0x51, 0xEC, 0x61, 0x17] ++
   [0x16, 0x5E, 0xAF, 0xD3, 0x49, 0xA6, 0x36, 0x43, 0xF4, 0x47, 0x91, 0xDF, 0x33, 0x93, 0x21, 0x3B] ++
   [0x79, 0xB7, 0x97, 0x85, 0x10, 0xB5, 0xBA, 0x3C, 0xB6, 0x70, 0xD0, 0x06, 0xA1, 0xFA, 0x81, 0x82] ++
   [0x83, 0x7E, 0x7F, 0x80, 0x96, 0x73, 0xBE, 0x56, 0x9B, 0x9E, 0x95, 0xD9, 0xF7, 0x02, 0xB9, 0xA4] ++
   [0xDE, 0x6A, 0x32, 0x6D, 0xD8, 0x8A, 0x84, 0x72, 0x2A, 0x14, 0x9F, 0x88, 0xF9, 0xDC, 0x89, 0x9A] ++
   [0xFB, 0x7C, 0x2E, 0xC3, 0x8F, 0xB8, 0x65, 0x48, 0x26, 0xC8, 0x12, 0x4A, 0xCE, 0xE7, 0xD2, 0x62] ++
   [0x0C, 0xE0, 0x1F, 0xEF, 0x11, 0x75, 0x78, 0x71, 0xA5, 0x8E, 0x76, 0x3D, 0xBD, 0xBC, 0x86, 0x57] ++
   [0x0B, 0x28, 0x2F, 0xA3, 0xDA, 0xD4, 0xE4, 0x0F, 0xA9, 0x27, 0x53, 0x04, 0x1B, 0xFC, 0xAC, 0xE6] ++
   [0x7A, 0x07, 0xAE, 0x63, 0xC5, 0xDB, 0xE2, 0xEA, 0x94, 0x8B, 0xC4, 0xD5, 0x9D, 0xF8, 0x90, 0x6B] ++
   [0xB1, 0x0D, 0xD6, 0xEB, 0xC6, 0x0E, 0xCF, 0xAD, 0x08, 0x4E, 0xD7, 0xE3, 0x5D, 0x50, 0x1E, 0xB3] ++
   [0x5B, 0x23, 0x38, 0x34, 0x68, 0x46, 0x03, 0x8C, 0xDD, 0x9C, 0x7D, 0xA0, 0xCD, 0x1A, 0x41, 0x1C]

/-- The listed table as a table of bytes. -/
def invTable : Vector Byte 256 := ⟨(invListedNat.map (BitVec.ofNat 8)).toArray, by decide +kernel⟩

/-! ### Reading one byte and one bit of the array -/

/-- The byte of STORE at a byte address. -/
def State.byteAt (s : State) (k : Nat) : Byte := s.store.read k

/-- The bit of STORE at a bit index: bit `i % 8` of the byte at `i / 8`, bit 0 least significant (R32, R36). -/
def State.bitAt (s : State) (i : Nat) : Bool := (s.byteAt (i / 8)).getLsbD (i % 8)

/-! ### The invariant of R27 -/

/-- R27: the invariants of the state, true after reset and kept by every command, in the spec's order; `store_wf` and
`store_bounded` say in addition that the model's storage has its canonical form and lists only bytes of the array
(R13). -/
structure Inv (s : State) : Prop where
  /-- Item 1. -/
  alloc_le_cap : s.allocBytes.toNat ≤ s.cfg.baCapBytes
  /-- Item 1. -/
  size_le_alloc : s.dataSize.toNat ≤ 8 * s.allocBytes.toNat
  /-- Item 2. -/
  none_empty : s.baState = .none → s.dataSize = 0#17 ∧ s.allocBytes = 0#14 ∧ s.itValid = false
  /-- Item 3: the sizes of a variant 1 construction, or those of a variant 2 or 3 construction. -/
  sizes : s.baState ≠ .none →
    s.dataSize.toNat = 8 * s.allocBytes.toNat ∨ s.allocBytes.toNat = s.dataSize.toNat / 8 + 1
  /-- Item 4, with the sizes of the variant that is being loaded (item 3). -/
  load_bytes : s.baState = .loadBytes →
    s.loadPtr.toNat < s.loadLen.toNat ∧ s.itValid = false ∧ s.loadLen.toNat = s.allocBytes.toNat ∧
      s.dataSize.toNat = 8 * s.allocBytes.toNat
  /-- Item 4, with the sizes of the variant that is being loaded (item 3). -/
  load_str : s.baState = .loadStr →
    s.loadPtr.toNat < s.loadLen.toNat ∧ s.itValid = false ∧ s.loadLen.toNat = s.dataSize.toNat ∧
      s.allocBytes.toNat = s.dataSize.toNat / 8 + 1
  /-- Item 5. -/
  iterator : s.itValid = true → s.baState = .ready ∧ s.itIndex ≤ s.dataSize.toNat
  /-- Item 6. -/
  no_fault : s.err = false → s.errCode = 0#4
  /-- Item 6. -/
  fault_code : s.err = true → 1 ≤ s.errCode.toNat ∧ s.errCode.toNat ≤ 8
  /-- Item 7. -/
  table : s.gfReady = true → s.inv = invTable
  /-- Item 8. -/
  bits_backed : ∀ i, i < s.dataSize.toNat → i / 8 < s.allocBytes.toNat
  /-- The canonical form of the storage. -/
  store_wf : s.store.wf = true
  /-- Only bytes of the array are listed (R13). -/
  store_bounded : ∀ k, s.allocBytes.toNat ≤ k → s.byteAt k = unlistedByte

/-- R31: the bits that the array has beyond DATA_SIZE hold 0. -/
def PadZero (s : State) : Prop := ∀ i, s.dataSize.toNat ≤ i → s.bitAt i = false

/-- R157: a run ended well if its final state has ERR = 0. The response to the last command has been given when
nothing is left at the port. -/
def EndedWell (s : State) : Prop := s.hostIn = [] ∧ s.err = false

/-! ### The host's sequences of commands -/

/-- The host gives commands to the port, in order, as command words (R128). -/
def State.give (s : State) (cs : List Instr) : State :=
  { s with hostIn := s.hostIn ++ cs.map fun i => .cmd (encode i) }

/-- The host's loop of R119 after IT_BEGIN, "while IT_ATEND returns false: IT_GET, IT_NEXT", with the values IT_GET
returned, at most `fuel` times round. -/
def traverse : Nat → State → Option (List Bool × State)
  | 0, _ => none
  | fuel + 1, s =>
    match exec .itAtEnd s with
    | .next s₁ =>
      if s₁.res = 1#17 then some ([], s₁)
      else
        match exec .itGet s₁ with
        | .next s₂ =>
          match exec .itNext s₂ with
          | .next s₃ =>
            match traverse fuel s₃ with
            | some (vs, t) => some (s₂.res.getLsbD 0 :: vs, t)
            | none => none
          | _ => none
        | _ => none
    | _ => none

/-! ### How a command ends -/

/-- The command completes (R126, R20): the next state is `u`, in which the command's rule has made its own writes, with
RES and the response carrying the value. -/
def Completes (i : Instr) (s u : State) (value : Value) : Prop :=
  exec i s = .next { u with res := value, hostOut := s.hostOut ++ [responseWord false s.errCode value] }

/-- The command raises `Fault(c)` (R131): ERR, ERR_CODE and the response, and nothing else. -/
def Raises (i : Instr) (s : State) (c : ErrCode) : Prop :=
  exec i s = .next { s with err := true, errCode := c.code, hostOut := s.hostOut ++ [responseWord true c.code 0#17] }

/-! ### Multiplication as the polynomial product of R71 -/

/-- The carry-less product over GF(2) of the polynomial `x` and the polynomial `y` of degree at most 7: the exclusive-or
of `x` shifted left by `k` for every bit `k` set in `y`. For `x` of degree at most 8 no term is lost in 16 bits. -/
def clMul (x : BitVec 16) (y : Byte) : BitVec 16 :=
  (List.range 8).foldl (fun p k => if y.getLsbD k then p ^^^ (x <<< k) else p) 0#16

/-- The reduction polynomial x^8 + x^4 + x^3 + x + 1 (R5). -/
def reductionPolynomial : BitVec 16 := 0x11B#16

end Sys2Proof.Machine
end

