-- ==== Sys2Proof/Certificates/Slice0/Obligations.lean ====
section
/-! DEFINITION. The statements about the engine, in the order of OBLIGATIONS.json. Each docstring names the rule of spec/
it formalises. `Completes`, `Raises`, `Inv`, `PadZero`, `clMul`, `traverse` and the groups of commands are Safety.lean's. -/

open Sys2Proof Sys2Proof.Machine

/-! ### Encoding -/

/-- R51 to R53, R60: decoding the word of a command gives the command back, with every operand at every value. -/
def Obligations.DecodeEncodeRoundTrip : Prop :=
  ∀ i : Instr, decode (encode i) = .ok i

/-- R50, R54: every word that decodes is the word of the command it decodes to: no reserved bit is ignored and no
command has a second word. -/
def Obligations.EncodeDecodeRoundTrip : Prop :=
  ∀ (w : Word) (i : Instr), decode w = .ok i → encode i = w

/-- R53, R54: a word that decodes selects exactly one row of the opcode table, the row of the command's mnemonic; a
word is illegal exactly when it selects no row. -/
def Obligations.DecodeSelectsOneTableRow : Prop :=
  (∀ (w : Word) (i : Instr), decode w = .ok i →
    ∃ r ∈ opcodeTable, r.selects w = true ∧ r.mnemonic = i.mnemonic ∧
      ∀ r' ∈ opcodeTable, r'.selects w = true → r' = r) ∧
  (∀ w : Word, (∃ e, decode w = .error e) ↔ wordWellFormed w = false)

/-- R60: the worked encodings and the illegal words listed beside them. -/
def Obligations.WorkedEncodingsDecode : Prop :=
  decode 0x01000000#32 = .ok .sysStatus ∧
  decode 0x1400C183#32 = .ok (.gfDiv 0xC1#8 0x83#8) ∧
  decode 0x15000053#32 = .ok (.gfInv 0x53#8) ∧
  decode 0x2100000C#32 = .ok (.baNewCount 12#16) ∧
  decode 0x2A010003#32 = .ok (.baXor 3#16 true) ∧
  decode 0x34000000#32 = .ok (.itXor false) ∧
  (∀ w ∈ [0x00000000#32, 0x10000001#32, 0x13010000#32, 0x28010002#32, 0x33010001#32, 0x36000000#32],
    ∃ e, decode w = .error e)

/-- R58, R59: the example lines of R58 stand for the words it gives, and a BA_STR line for its five commands. -/
def Obligations.ExampleLinesAssemble : Prop :=
  readLine "GF_MUL 0x53, 0xCA".toList = some (.command (.gfMul 0x53#8 0xCA#8)) ∧
  encode (.gfMul 0x53#8 0xCA#8) = 0x130053CA#32 ∧
  readLine "BA_SET 2, 0".toList = some (.command (.baSet 2#16 false)) ∧
  encode (.baSet 2#16 false) = 0x29000002#32 ∧
  readLine "BA_SET 2, 1".toList = some (.command (.baSet 2#16 true)) ∧
  encode (.baSet 2#16 true) = 0x29010002#32 ∧
  readLine "BA_PUSH_CHAR '1' ; one".toList = some (.command (.baPushChar 0x31#8)) ∧
  encode (.baPushChar 0x31#8) = 0x24000031#32 ∧
  readLine "IT_SET 1".toList = some (.command (.itSet true)) ∧
  encode (.itSet true) = 0x33010000#32 ∧
  readLine "GF_NEW".toList = some (.command .gfNew) ∧
  encode .gfNew = 0x10000000#32 ∧
  (readLine "BA_STR \"1011\"".toList).map Line.commands =
    some [.baNewStr 4#16, .baPushChar 0x31#8, .baPushChar 0x30#8, .baPushChar 0x31#8, .baPushChar 0x31#8]

/-- R58: a command written as a line reads back as the command, with every operand at every value. -/
def Obligations.LineTextRoundTrip : Prop :=
  ∀ i : Instr, readLine (lineText i) = some (.command i)

/-! ### The step -/

/-- R126: when the next thing at the port is a word that decodes, the step takes it from the port and is the execution
of the command it decodes to. -/
def Obligations.StepRunsDecodedCommand : Prop :=
  ∀ (s : State) (w : Word) (rest : List HostEvent) (i : Instr),
    s.hostIn = .cmd w :: rest → decode w = .ok i → step s = exec i { s with hostIn := rest }

/-- R54: on a running engine an illegal word raises E_ILLEGAL (code 1) and changes no other state. -/
def Obligations.IllegalWordRaisesIllegal : Prop :=
  ∀ (s : State) (w : Word) (rest : List HostEvent) (e : DecodeReject),
    s.hostIn = .cmd w :: rest → decode w = .error e → s.err = false →
      step s = .next { s with hostIn := rest, err := true, errCode := 1#4, hostOut := s.hostOut ++ [0x81000000#32] }

/-- R150: the reset event puts every piece of the engine's state at its reset value, whatever the state, and the STATUS
view with it. -/
def Obligations.ResetEventClearsEngine : Prop :=
  ∀ (s : State) (rest : List HostEvent), s.hostIn = .rst :: rest →
    ∃ t, step s = .next t ∧
      t = { cfg := t.cfg, inv := Vector.replicate 256 0x00#8, gfReady := false, store := [], dataSize := 0#17,
            allocBytes := 0#14, baState := .none, loadPtr := 0#16, loadLen := 0#16, itByte := 0#14, itOff := 0#3,
            itValid := false, res := 0#17, err := false, errCode := 0#4, hostIn := t.hostIn, hostOut := t.hostOut } ∧
      t.status = 0#17

/-- The model's choice (log entry 2), no rule of the spec: a reset event is taken from the port and answers nothing, and
what the host gives after it and the responses before it stay. -/
def Obligations.ResetEventKeepsPort : Prop :=
  ∀ (s : State) (rest : List HostEvent), s.hostIn = .rst :: rest →
    ∃ t, step s = .next t ∧ t.hostIn = rest ∧ t.hostOut = s.hostOut

/-- R128: the engine does nothing between commands: with nothing at the port a step changes no state. -/
def Obligations.IdlePortChangesNothing : Prop :=
  ∀ s : State, s.hostIn = [] → step s = .next s

/-- R126 (totality): from every state that meets the invariant the step has a next state. -/
def Obligations.StepIsTotal : Prop :=
  ∀ s : State, Inv s → ∃ t, step s = .next t

/-- R126, R128: a command word is taken from the port and answered by exactly one response, after those before it; it
carries ERR and ERR_CODE as they are after the command, and VALUE 0 unless the command executed. -/
def Obligations.OneResponsePerCommand : Prop :=
  ∀ (s t : State) (w : Word) (rest : List HostEvent), s.hostIn = .cmd w :: rest → step s = .next t →
    t.hostIn = rest ∧
    ∃ v, t.hostOut = s.hostOut ++ [responseWord t.err t.errCode v] ∧
      (t.err = true → decode w ≠ .ok .sysStatus → v = 0#17)

/-- R56: the fields of the response word. -/
def Obligations.ResponseWordFields : Prop :=
  ∀ (err : Bool) (code : BitVec 4) (v : Value),
    (responseWord err code v).getLsbD 31 = err ∧ (responseWord err code v).extractLsb' 28 3 = 0#3 ∧
    (responseWord err code v).extractLsb' 24 4 = code ∧ (responseWord err code v).extractLsb' 17 7 = 0#7 ∧
    (responseWord err code v).extractLsb' 0 17 = v

/-- R26: no step changes BA_CAP_BYTES. -/
def Obligations.ParametersNeverChange : Prop :=
  ∀ s t : State, step s = .next t → t.cfg = s.cfg

/-! ### The invariant -/

/-- R27: the invariants of the state are kept by every step, from every state that meets them. -/
def Obligations.InvariantKeptByStep : Prop :=
  ∀ s t : State, Inv s → step s = .next t → Inv t

/-- R27, R150: they hold at reset, with every legal capacity. -/
def Obligations.InvariantAtReset : Prop :=
  Inv State.reset ∧ ∀ cfg : Config, Inv (State.resetWith cfg)

/-- R31: the bits that the storage has beyond DATA_SIZE hold 0, and no step changes that. -/
def Obligations.BitsBeyondSizeStayZero : Prop :=
  PadZero State.reset ∧ ∀ s t : State, Inv s → PadZero s → step s = .next t → PadZero t

/-! ### Faults and the halted state -/

/-- R131: a command word that raises a fault, an illegal one included, sets ERR and ERR_CODE to a code of R130 and is
answered with ERR = 1, that code and VALUE 0; no other register, byte of STORE or entry of `inv` changes. -/
def Obligations.FaultsArePrecise : Prop :=
  ∀ (s t : State) (w : Word) (rest : List HostEvent), s.hostIn = .cmd w :: rest → s.err = false →
    step s = .next t → t.err = true →
    ∃ c : BitVec 4, 1 ≤ c.toNat ∧ c.toNat ≤ 8 ∧
      t = { s with hostIn := rest, err := true, errCode := c, hostOut := s.hostOut ++ [responseWord true c 0#17] }

/-- R20: a command that executes, except SYS_STATUS, leaves in RES the value its response carries, and leaves ERR and
ERR_CODE as they were. -/
def Obligations.ResHoldsResponseValue : Prop :=
  ∀ (i : Instr) (s t : State), s.err = false → i ≠ .sysStatus → exec i s = .next t → t.err = false →
    t.errCode = s.errCode ∧ t.hostOut = s.hostOut ++ [responseWord false s.errCode t.res]

/-- R132: in the halted state every command word other than a well-formed SYS_STATUS, an illegal one included, is dropped:
it changes no state and is answered with ERR = 1, the stored code and VALUE 0; SYS_STATUS answers STATUS and changes no
state either. -/
def Obligations.HaltedEngineDropsCommands : Prop :=
  ∀ (s : State) (w : Word) (rest : List HostEvent), s.hostIn = .cmd w :: rest → s.err = true →
    (decode w ≠ .ok .sysStatus →
      step s = .next { s with hostIn := rest, hostOut := s.hostOut ++ [responseWord true s.errCode 0#17] }) ∧
    (decode w = .ok .sysStatus →
      step s = .next { s with hostIn := rest, hostOut := s.hostOut ++ [responseWord true s.errCode s.status] })

/-- R132, R133: in the halted state no step but the reset event changes anything but the port: the fault record and all
other state are frozen. -/
def Obligations.HaltedStateIsFrozen : Prop :=
  ∀ s t : State, s.err = true → (∀ rest, s.hostIn ≠ .rst :: rest) → step s = .next t →
    t = { s with hostIn := t.hostIn, hostOut := t.hostOut }

/-- R130: the codes of the eight faults. -/
def Obligations.FaultCodeNumbers : Prop :=
  ErrCode.illegal.code = 1#4 ∧ ErrCode.gfNotReady.code = 2#4 ∧ ErrCode.baNotReady.code = 3#4 ∧
  ErrCode.baSequence.code = 4#4 ∧ ErrCode.baCapacity.code = 5#4 ∧ ErrCode.baRange.code = 6#4 ∧
  ErrCode.itInvalid.code = 7#4 ∧ ErrCode.itEnd.code = 8#4

/-- R125, R22: SYS_STATUS answers the STATUS view, halted or not, and writes nothing. -/
def Obligations.SysStatusAnswersStatus : Prop :=
  ∀ s : State, ∃ v : Value,
    exec .sysStatus s = .next { s with hostOut := s.hostOut ++ [responseWord s.err s.errCode v] } ∧
    v.getLsbD 0 = s.gfReady ∧
    v.extractLsb' 1 2 = (match s.baState with | .none => 0#2 | .loadBytes => 1#2 | .loadStr => 2#2 | .ready => 3#2) ∧
    v.getLsbD 3 = s.itValid ∧ v.getLsbD 4 = s.err ∧ v.extractLsb' 5 4 = s.errCode ∧ v.extractLsb' 9 8 = 0#8

/-! ### Unit GF -/

/-- R75, R76: GF_ADD and GF_SUB return the exclusive-or, for every pair of bytes. -/
def Obligations.GfAddSubReturnXor : Prop :=
  ∀ (a b : Byte) (s : State), s.err = false → s.gfReady = true →
    Completes (.gfAdd a b) s s ((a ^^^ b).setWidth 17) ∧ Completes (.gfSub a b) s s ((a ^^^ b).setWidth 17)

/-- R77, R71: GF_MUL returns the byte that is congruent to the carry-less product of its operands modulo
x^8 + x^4 + x^3 + x + 1. -/
def Obligations.GfMulReturnsReducedProduct : Prop :=
  ∀ (a b : Byte) (s : State), s.err = false → s.gfReady = true →
    ∃ p q : Byte, Completes (.gfMul a b) s s (p.setWidth 17) ∧
      clMul (a.setWidth 16) b = clMul reductionPolynomial q ^^^ p.setWidth 16

/-- R78, R72: GF_DIV returns 0 when either operand is 0 and else the product with the divisor's table entry, the
shortcut for dividend 1 included. No fault. -/
def Obligations.GfDivReturnsQuotient : Prop :=
  ∀ (a b : Byte) (s : State), s.err = false → s.gfReady = true →
    Completes (.gfDiv a b) s s
      ((if a = 0x00#8 ∨ b = 0x00#8 then 0x00#8 else gfMul a (s.inv[b.toNat]'b.isLt)).setWidth 17)

/-- R79: GF_INV returns the table's entry. -/
def Obligations.GfInvReturnsEntry : Prop :=
  ∀ (d : Byte) (s : State), s.err = false → s.gfReady = true →
    Completes (.gfInv d) s s ((s.inv[d.toNat]'d.isLt).setWidth 17)

/-- R75 to R79: the five value commands raise E_GF_NOT_READY while GF_READY is 0, whatever their operands. -/
def Obligations.GfNotReadyRaised : Prop :=
  ∀ (a b : Byte) (s : State), s.err = false → s.gfReady = false →
    Raises (.gfAdd a b) s .gfNotReady ∧ Raises (.gfSub a b) s .gfNotReady ∧ Raises (.gfMul a b) s .gfNotReady ∧
    Raises (.gfDiv a b) s .gfNotReady ∧ Raises (.gfInv a) s .gfNotReady

/-- R74, R73: GF_NEW executes whatever GF_READY is, writes the 256 entries of the table listed in 95_test_vectors.md
section 3 and sets GF_READY; nothing else but RES changes. -/
def Obligations.GfNewBuildsListedTable : Prop :=
  ∀ s : State, s.err = false → Completes .gfNew s { s with inv := invTable, gfReady := true } 0#17

/-- R80, R81: multiplication is commutative and associative, distributes over addition, has the identity 1 and the
annihilator 0, for all bytes. -/
def Obligations.GfMulFieldLaws : Prop :=
  (∀ a b : Byte, gfMul a b = gfMul b a) ∧
  (∀ a b c : Byte, gfMul (gfMul a b) c = gfMul a (gfMul b c)) ∧
  (∀ a b c : Byte, gfMul a (gfAdd b c) = gfAdd (gfMul a b) (gfMul a c)) ∧
  (∀ a : Byte, gfMul a 0x01#8 = a) ∧
  (∀ a : Byte, gfMul a 0x00#8 = 0x00#8)

/-- R11, R73, R81: in the table that R73 builds, every nonzero entry is the inverse and `inv[0]` is 0; the table is an
involution, only 0 and 1 are their own entry. -/
def Obligations.InverseTableIsCorrect : Prop :=
  (∀ a : Byte, a ≠ 0x00#8 → gfMul a (invRead buildInv a) = 0x01#8) ∧
  invRead buildInv 0x00#8 = 0x00#8 ∧
  (∀ a : Byte, invRead buildInv (invRead buildInv a) = a) ∧
  (∀ a : Byte, invRead buildInv a = a ↔ a = 0x00#8 ∨ a = 0x01#8)

/-- R81, R78: with the built table, division undoes multiplication and multiplication undoes division, for every
nonzero divisor; a nonzero element divided by itself is 1. -/
def Obligations.DivisionUndoesMultiplication : Prop :=
  ∀ a b : Byte, b ≠ 0x00#8 →
    gfMul (gfDiv buildInv a b) b = a ∧ gfDiv buildInv (gfMul a b) b = a ∧ gfDiv buildInv b b = 0x01#8

/-- R85: a GF command reads and writes nothing of unit BA. It leaves STORE and every BA and IT register as they are,
and does the same, in the registers it does write, whatever they hold. -/
def Obligations.GfIndependentOfBa : Prop :=
  ∀ (i : Instr) (s t u : State), i.isGf = true → exec i s = .next t →
    exec i { s with store := u.store, dataSize := u.dataSize, allocBytes := u.allocBytes, baState := u.baState, loadPtr := u.loadPtr, loadLen := u.loadLen, itByte := u.itByte, itOff := u.itOff, itValid := u.itValid } = .next { t with store := u.store, dataSize := u.dataSize, allocBytes := u.allocBytes, baState := u.baState, loadPtr := u.loadPtr, loadLen := u.loadLen, itByte := u.itByte, itOff := u.itOff, itValid := u.itValid }

/-! ### Unit BA: construction -/

/-- R90: BA_NEW_BYTES n, for n not over the capacity, whatever BA_STATE is: n bytes, all 0, and 8 * n bits. -/
def Obligations.BaNewBytesConstructs : Prop :=
  ∀ (n : BitVec 16) (s : State), s.err = false → n.toNat ≤ s.cfg.baCapBytes →
    ∃ t, exec (.baNewBytes n) s = .next t ∧
      t = { s with store := t.store, allocBytes := t.allocBytes, dataSize := t.dataSize, loadLen := n, loadPtr := 0#16, itValid := false, baState := if n.toNat = 0 then .ready else .loadBytes, res := 0#17, hostOut := s.hostOut ++ [responseWord false s.errCode 0#17] } ∧
      t.allocBytes.toNat = n.toNat ∧ t.dataSize.toNat = 8 * n.toNat ∧ ∀ k, t.byteAt k = 0x00#8

/-- R92: BA_NEW_COUNT n, whatever BA_STATE is: n/8 + 1 bytes, all 0, n bits, READY at once. -/
def Obligations.BaNewCountConstructs : Prop :=
  ∀ (n : BitVec 16) (s : State), s.err = false → n.toNat / 8 + 1 ≤ s.cfg.baCapBytes →
    ∃ t, exec (.baNewCount n) s = .next t ∧
      t = { s with store := t.store, allocBytes := t.allocBytes, dataSize := t.dataSize, loadLen := 0#16, loadPtr := 0#16, itValid := false, baState := .ready, res := 0#17, hostOut := s.hostOut ++ [responseWord false s.errCode 0#17] } ∧
      t.allocBytes.toNat = n.toNat / 8 + 1 ∧ t.dataSize.toNat = n.toNat ∧ ∀ k, t.byteAt k = 0x00#8

/-- R93: BA_NEW_STR n, whatever BA_STATE is: as BA_NEW_COUNT, expecting n characters. -/
def Obligations.BaNewStrConstructs : Prop :=
  ∀ (n : BitVec 16) (s : State), s.err = false → n.toNat / 8 + 1 ≤ s.cfg.baCapBytes →
    ∃ t, exec (.baNewStr n) s = .next t ∧
      t = { s with store := t.store, allocBytes := t.allocBytes, dataSize := t.dataSize, loadLen := n, loadPtr := 0#16, itValid := false, baState := if n.toNat = 0 then .ready else .loadStr, res := 0#17, hostOut := s.hostOut ++ [responseWord false s.errCode 0#17] } ∧
      t.allocBytes.toNat = n.toNat / 8 + 1 ∧ t.dataSize.toNat = n.toNat ∧ ∀ k, t.byteAt k = 0x00#8

/-- R90, R92, R93: a construction that needs more than BA_CAP_BYTES bytes raises E_BA_CAPACITY. -/
def Obligations.CapacityFaultRaised : Prop :=
  ∀ (n : BitVec 16) (s : State), s.err = false →
    (s.cfg.baCapBytes < n.toNat → Raises (.baNewBytes n) s .baCapacity) ∧
    (s.cfg.baCapBytes < n.toNat / 8 + 1 →
      Raises (.baNewCount n) s .baCapacity ∧ Raises (.baNewStr n) s .baCapacity)

/-- R91: BA_PUSH_BYTE d while a byte construction is in progress: the byte at address LOAD_PTR becomes d, every other
byte stays, LOAD_PTR counts it, and the last push makes the array READY. -/
def Obligations.BaPushByteStoresByte : Prop :=
  ∀ (d : Byte) (s : State), Inv s → s.err = false → s.baState = .loadBytes →
    ∃ t, exec (.baPushByte d) s = .next t ∧
      t = { s with store := t.store, loadPtr := t.loadPtr, baState := if s.loadPtr.toNat + 1 = s.loadLen.toNat then .ready else .loadBytes, res := 0#17, hostOut := s.hostOut ++ [responseWord false s.errCode 0#17] } ∧
      t.loadPtr.toNat = s.loadPtr.toNat + 1 ∧
      t.byteAt s.loadPtr.toNat = d ∧ ∀ k, k ≠ s.loadPtr.toNat → t.byteAt k = s.byteAt k

/-- R94: BA_PUSH_CHAR d while a string construction is in progress: bit LOAD_PTR becomes true exactly when d is 0x31,
every other bit stays, LOAD_PTR counts it, and the last push makes the array READY. -/
def Obligations.BaPushCharWritesBit : Prop :=
  ∀ (d : Byte) (s : State), Inv s → s.err = false → s.baState = .loadStr →
    ∃ t, exec (.baPushChar d) s = .next t ∧
      t = { s with store := t.store, loadPtr := t.loadPtr, baState := if s.loadPtr.toNat + 1 = s.loadLen.toNat then .ready else .loadStr, res := 0#17, hostOut := s.hostOut ++ [responseWord false s.errCode 0#17] } ∧
      t.loadPtr.toNat = s.loadPtr.toNat + 1 ∧
      t.bitAt s.loadPtr.toNat = (d == 0x31#8) ∧ (∀ i, i ≠ s.loadPtr.toNat → t.bitAt i = s.bitAt i) ∧
      ∀ k, k ≠ s.loadPtr.toNat / 8 → t.byteAt k = s.byteAt k

/-- R91, R94: a push with no matching construction in progress raises E_BA_SEQUENCE. -/
def Obligations.SequenceFaultRaised : Prop :=
  ∀ (d : Byte) (s : State), s.err = false →
    (s.baState ≠ .loadBytes → Raises (.baPushByte d) s .baSequence) ∧
    (s.baState ≠ .loadStr → Raises (.baPushChar d) s .baSequence)

/-! ### Unit BA: indexed access -/

/-- R95, R97: BA_GET n returns bit n, BA_XOR n, v its exclusive-or with v; STORE and everything else but RES stays. -/
def Obligations.BaGetXorReturnBit : Prop :=
  ∀ (n : BitVec 16) (v : Bool) (s : State), Inv s → s.err = false → s.baState = .ready → n.toNat < s.dataSize.toNat →
    Completes (.baGet n) s s (if s.bitAt n.toNat then 1#17 else 0#17) ∧
    Completes (.baXor n v) s s (if s.bitAt n.toNat ^^ v then 1#17 else 0#17)

/-- R96, R34: BA_SET n, v makes bit n equal to v; every other bit of the byte n/8 and every other byte stays. -/
def Obligations.BaSetWritesOneBit : Prop :=
  ∀ (n : BitVec 16) (v : Bool) (s : State), Inv s → s.err = false → s.baState = .ready → n.toNat < s.dataSize.toNat →
    ∃ t, exec (.baSet n v) s = .next t ∧
      t = { s with store := t.store, res := 0#17, hostOut := s.hostOut ++ [responseWord false s.errCode 0#17] } ∧
      t.bitAt n.toNat = v ∧ (∀ i, i ≠ n.toNat → t.bitAt i = s.bitAt i) ∧
      ∀ k, k ≠ n.toNat / 8 → t.byteAt k = s.byteAt k

/-- R98: BA_SIZE returns DATA_SIZE, all 17 bits of it. -/
def Obligations.BaSizeReturnsDataSize : Prop :=
  ∀ s : State, s.err = false → s.baState = .ready → Completes .baSize s s s.dataSize

/-- R130 row 3, R134: every array and iterator command raises E_BA_NOT_READY while BA_STATE is not READY, whatever its
operands and the iterator. -/
def Obligations.BaNotReadyRaised : Prop :=
  ∀ (i : Instr) (s : State), i.needsArray = true → s.err = false → s.baState ≠ .ready → Raises i s .baNotReady

/-- R35: an index at or beyond DATA_SIZE raises E_BA_RANGE, for the indexed commands and for those at the iterator. -/
def Obligations.RangeFaultRaised : Prop :=
  ∀ (n : BitVec 16) (v : Bool) (s : State), s.err = false → s.baState = .ready →
    (s.dataSize.toNat ≤ n.toNat →
      Raises (.baGet n) s .baRange ∧ Raises (.baSet n v) s .baRange ∧ Raises (.baXor n v) s .baRange) ∧
    (s.itValid = true → s.dataSize.toNat ≤ s.itIndex →
      Raises .itGet s .baRange ∧ Raises (.itSet v) s .baRange ∧ Raises (.itXor v) s .baRange)

/-- R103: a BA or IT command reads and writes nothing of unit GF: it leaves the table and GF_READY as they are, and does
the same whatever they hold. -/
def Obligations.BaIndependentOfGf : Prop :=
  ∀ (i : Instr) (s t u : State), i.isGf = false → i ≠ .sysStatus → exec i s = .next t →
    exec i { s with inv := u.inv, gfReady := u.gfReady } = .next { t with inv := u.inv, gfReady := u.gfReady }

/-- R100: no command but a construction changes DATA_SIZE or ALLOC_BYTES. -/
def Obligations.ArrayIsNeverResized : Prop :=
  ∀ (i : Instr) (s t : State), i.isConstruction = false → exec i s = .next t →
    t.dataSize = s.dataSize ∧ t.allocBytes = s.allocBytes

/-- R38: a command that is none of the constructions, the pushes and the two bit writes leaves every byte of STORE. -/
def Obligations.ReadingCommandsKeepStore : Prop :=
  ∀ (i : Instr) (s t : State), i.writesStore = false → exec i s = .next t → ∀ k, t.byteAt k = s.byteAt k

/-! ### Unit BA: the iterator -/

/-- R110: IT_BEGIN puts the iterator at bit 0 of the first byte and makes it valid. -/
def Obligations.ItBeginStartsAtZero : Prop :=
  ∀ s : State, s.err = false → s.baState = .ready →
    Completes .itBegin s { s with itByte := 0#14, itOff := 0#3, itValid := true } 0#17

/-- R111: IT_NEXT moves the iterator by one bit, rolling over to the next byte when the offset reaches 8. -/
def Obligations.ItNextAdvancesOneBit : Prop :=
  ∀ s : State, Inv s → s.err = false → s.baState = .ready → s.itValid = true → s.itIndex ≠ s.dataSize.toNat →
    ∃ t, exec .itNext s = .next t ∧
      t = { s with itByte := t.itByte, itOff := t.itOff, res := 0#17, hostOut := s.hostOut ++ [responseWord false s.errCode 0#17] } ∧
      t.itIndex = s.itIndex + 1 ∧
      t.itByte.toNat = (if s.itOff.toNat = 7 then s.itByte.toNat + 1 else s.itByte.toNat) ∧
      t.itOff.toNat = (if s.itOff.toNat = 7 then 0 else s.itOff.toNat + 1)

/-- R112, R114: IT_GET returns the bit at the iterator, IT_XOR v its exclusive-or with v; only RES changes. -/
def Obligations.ItGetXorReturnBit : Prop :=
  ∀ (v : Bool) (s : State), Inv s → s.err = false → s.baState = .ready → s.itValid = true →
    s.itIndex < s.dataSize.toNat →
    Completes .itGet s s (if s.bitAt s.itIndex then 1#17 else 0#17) ∧
    Completes (.itXor v) s s (if s.bitAt s.itIndex ^^ v then 1#17 else 0#17)

/-- R113: IT_SET v makes the bit at the iterator equal to v; every other bit stays and the position does not move. -/
def Obligations.ItSetWritesOneBit : Prop :=
  ∀ (v : Bool) (s : State), Inv s → s.err = false → s.baState = .ready → s.itValid = true →
    s.itIndex < s.dataSize.toNat →
    ∃ t, exec (.itSet v) s = .next t ∧
      t = { s with store := t.store, res := 0#17, hostOut := s.hostOut ++ [responseWord false s.errCode 0#17] } ∧
      t.bitAt s.itIndex = v ∧ (∀ i, i ≠ s.itIndex → t.bitAt i = s.bitAt i) ∧
      ∀ k, k ≠ s.itByte.toNat → t.byteAt k = s.byteAt k

/-- R117, R115: IT_ATEND compares both components of the position with those of End(), and the pairs are equal exactly
when ItIndex() is DATA_SIZE. -/
def Obligations.ItAtEndComparesWithEnd : Prop :=
  ∀ s : State, s.err = false → s.baState = .ready → s.itValid = true →
    Completes .itAtEnd s s
      (if s.itByte.toNat = s.dataSize.toNat / 8 ∧ s.itOff.toNat = s.dataSize.toNat % 8 then 1#17 else 0#17) ∧
    (s.itByte.toNat = s.dataSize.toNat / 8 ∧ s.itOff.toNat = s.dataSize.toNat % 8 ↔ s.itIndex = s.dataSize.toNat)

/-- R120, R134: the iterator commands raise E_IT_INVALID on a READY array while IT_VALID is 0. -/
def Obligations.ItInvalidRaised : Prop :=
  ∀ (i : Instr) (s : State), i.needsIterator = true → s.err = false → s.baState = .ready → s.itValid = false →
    Raises i s .itInvalid

/-- R111: IT_NEXT at End() raises E_IT_END; End() is (DATA_SIZE / 8, DATA_SIZE % 8). -/
def Obligations.ItEndFaultRaised : Prop :=
  ∀ s : State, s.err = false → s.baState = .ready → s.itValid = true →
    s.itByte.toNat = s.dataSize.toNat / 8 → s.itOff.toNat = s.dataSize.toNat % 8 → Raises .itNext s .itEnd

/-- R118: the position changes only by IT_BEGIN, to (0, 0), and by IT_NEXT, by one bit forward; and only IT_BEGIN and the
constructions change whether the iterator is valid. -/
def Obligations.IteratorMovesForwardOnly : Prop :=
  ∀ (i : Instr) (s t : State), Inv s → exec i s = .next t →
    ((t.itByte = s.itByte ∧ t.itOff = s.itOff) ∨ (i = .itBegin ∧ t.itByte = 0#14 ∧ t.itOff = 0#3) ∨
      (i = .itNext ∧ t.itIndex = s.itIndex + 1)) ∧
    (t.itValid = s.itValid ∨ i = .itBegin ∨ i.isConstruction = true)

/-! ### Sequences of commands -/

/-- R102: for an array built by BA_STR from a string of n characters, n at most 65535 and within the capacity, given to
the port of a running engine with nothing else at it, the n + 1 commands execute without a fault, the array is READY with n
bits, and BA_GET i returns whether character i is '1'. -/
def Obligations.StringConstructionRoundTrip : Prop :=
  ∀ (cs : List Byte) (s : State), Inv s → s.err = false → s.hostIn = [] →
    (Pseudo.baStr cs).wf = true → cs.length / 8 + 1 ≤ s.cfg.baCapBytes →
    ∃ t, core.run (cs.length + 1) (s.give (Pseudo.baStr cs).expand) = .next t ∧
      EndedWell t ∧ t.baState = .ready ∧ t.dataSize.toNat = cs.length ∧
      ∀ (i : BitVec 16) (h : i.toNat < cs.length),
        Completes (.baGet i) t t (if cs[i.toNat] = 0x31#8 then 1#17 else 0#17)

/-- R91: the buffer of BA_BYTES, within the capacity, given to the port of a running engine with nothing else at it: the
commands execute without a fault, the array is READY with 8 bits a byte, and STORE is exactly that buffer. -/
def Obligations.BufferConstructionCopiesBytes : Prop :=
  ∀ (ds : List Byte) (s : State), Inv s → s.err = false → s.hostIn = [] →
    (Pseudo.baBytes ds).wf = true → ds.length ≤ s.cfg.baCapBytes →
    ∃ t, core.run (ds.length + 1) (s.give (Pseudo.baBytes ds).expand) = .next t ∧
      EndedWell t ∧ t.baState = .ready ∧ t.dataSize.toNat = 8 * ds.length ∧ t.allocBytes.toNat = ds.length ∧
      ∀ (k : Nat) (h : k < ds.length), t.byteAt k = ds[k]

/-- R119: on any READY array the host's loop after IT_BEGIN executes IT_GET exactly DATA_SIZE times, the k-th value
being bit k, and ends with the iterator at End(), the array as it was and no fault. -/
def Obligations.IterationIsComplete : Prop :=
  ∀ s : State, Inv s → s.err = false → s.baState = .ready →
    ∃ s₀ t vs, exec .itBegin s = .next s₀ ∧ traverse (s.dataSize.toNat + 1) s₀ = some (vs, t) ∧
      vs = (List.range s.dataSize.toNat).map s.bitAt ∧
      t.itIndex = s.dataSize.toNat ∧ t.err = false ∧ t.baState = .ready ∧ t.store = s.store
end

