-- ==== Sys2Proof/Laws/Decode.lean ====
section
/-! SUPPORT. The fields of an encoded word, format by format, and the word rebuilt from its fields when no reserved bit is
set. Each is proved bit by bit. -/

namespace Sys2Proof

/-! ### Format N -/

theorem encodeN_opcode (op : BitVec 8) : cmdOpcode (encodeN op) = op := by
  apply BitVec.eq_of_getLsbD_eq
  intro i hi
  simp only [cmdOpcode, encodeN, BitVec.getLsbD_extractLsb', BitVec.getLsbD_append]
  interval_cases i <;> simp

theorem encodeN_reserved (op : BitVec 8) : encodeN op &&& Format.n.reserved = 0#32 := by
  apply BitVec.eq_of_getLsbD_eq
  intro i hi
  simp only [Format.reserved, encodeN, BitVec.getLsbD_and, BitVec.getLsbD_append]
  interval_cases i <;> simp

/-- A word of format N with no reserved bit set is the encoding of its own fields. -/
theorem encodeN_fields (w : Word) (h : w &&& Format.n.reserved = 0#32) : encodeN (cmdOpcode w) = w := by
  have h' : ∀ i, (w &&& Format.n.reserved).getLsbD i = false := by simp [h]
  apply BitVec.eq_of_getLsbD_eq
  intro i hi
  have hb := h' i
  simp only [Format.reserved, BitVec.getLsbD_and] at hb
  simp only [encodeN, cmdOpcode, BitVec.getLsbD_append, BitVec.getLsbD_extractLsb']
  interval_cases i <;> simp_all

/-! ### Format G -/

theorem encodeG_opcode (op : BitVec 8) (a b : Byte) : cmdOpcode (encodeG op a b) = op := by
  apply BitVec.eq_of_getLsbD_eq
  intro i hi
  simp only [cmdOpcode, encodeG, BitVec.getLsbD_extractLsb', BitVec.getLsbD_append]
  interval_cases i <;> simp

theorem encodeG_reserved (op : BitVec 8) (a b : Byte) : encodeG op a b &&& Format.g.reserved = 0#32 := by
  apply BitVec.eq_of_getLsbD_eq
  intro i hi
  simp only [Format.reserved, encodeG, BitVec.getLsbD_and, BitVec.getLsbD_append]
  interval_cases i <;> simp

theorem encodeG_a (op : BitVec 8) (a b : Byte) : cmdA (encodeG op a b) = a := by
  apply BitVec.eq_of_getLsbD_eq
  intro i hi
  simp only [cmdA, encodeG, BitVec.getLsbD_extractLsb', BitVec.getLsbD_append]
  interval_cases i <;> simp

theorem encodeG_b (op : BitVec 8) (a b : Byte) : cmdB (encodeG op a b) = b := by
  apply BitVec.eq_of_getLsbD_eq
  intro i hi
  simp only [cmdB, encodeG, BitVec.getLsbD_extractLsb', BitVec.getLsbD_append]
  interval_cases i <;> simp

/-- A word of format G with no reserved bit set is the encoding of its own fields. -/
theorem encodeG_fields (w : Word) (h : w &&& Format.g.reserved = 0#32) : encodeG (cmdOpcode w) (cmdA w) (cmdB w) = w := by
  have h' : ∀ i, (w &&& Format.g.reserved).getLsbD i = false := by simp [h]
  apply BitVec.eq_of_getLsbD_eq
  intro i hi
  have hb := h' i
  simp only [Format.reserved, BitVec.getLsbD_and] at hb
  simp only [encodeG, cmdOpcode, cmdA, cmdB, BitVec.getLsbD_append, BitVec.getLsbD_extractLsb']
  interval_cases i <;> simp_all

/-! ### Format B -/

theorem encodeB_opcode (op : BitVec 8) (d : Byte) : cmdOpcode (encodeB op d) = op := by
  apply BitVec.eq_of_getLsbD_eq
  intro i hi
  simp only [cmdOpcode, encodeB, BitVec.getLsbD_extractLsb', BitVec.getLsbD_append]
  interval_cases i <;> simp

theorem encodeB_reserved (op : BitVec 8) (d : Byte) : encodeB op d &&& Format.b.reserved = 0#32 := by
  apply BitVec.eq_of_getLsbD_eq
  intro i hi
  simp only [Format.reserved, encodeB, BitVec.getLsbD_and, BitVec.getLsbD_append]
  interval_cases i <;> simp

theorem encodeB_d (op : BitVec 8) (d : Byte) : cmdD (encodeB op d) = d := by
  apply BitVec.eq_of_getLsbD_eq
  intro i hi
  simp only [cmdD, encodeB, BitVec.getLsbD_extractLsb', BitVec.getLsbD_append]
  interval_cases i <;> simp

/-- A word of format B with no reserved bit set is the encoding of its own fields. -/
theorem encodeB_fields (w : Word) (h : w &&& Format.b.reserved = 0#32) : encodeB (cmdOpcode w) (cmdD w) = w := by
  have h' : ∀ i, (w &&& Format.b.reserved).getLsbD i = false := by simp [h]
  apply BitVec.eq_of_getLsbD_eq
  intro i hi
  have hb := h' i
  simp only [Format.reserved, BitVec.getLsbD_and] at hb
  simp only [encodeB, cmdOpcode, cmdD, BitVec.getLsbD_append, BitVec.getLsbD_extractLsb']
  interval_cases i <;> simp_all

/-! ### Format W -/

theorem encodeW_opcode (op : BitVec 8) (n : BitVec 16) : cmdOpcode (encodeW op n) = op := by
  apply BitVec.eq_of_getLsbD_eq
  intro i hi
  simp only [cmdOpcode, encodeW, BitVec.getLsbD_extractLsb', BitVec.getLsbD_append]
  interval_cases i <;> simp

theorem encodeW_reserved (op : BitVec 8) (n : BitVec 16) : encodeW op n &&& Format.w.reserved = 0#32 := by
  apply BitVec.eq_of_getLsbD_eq
  intro i hi
  simp only [Format.reserved, encodeW, BitVec.getLsbD_and, BitVec.getLsbD_append]
  interval_cases i <;> simp

theorem encodeW_n (op : BitVec 8) (n : BitVec 16) : cmdN (encodeW op n) = n := by
  apply BitVec.eq_of_getLsbD_eq
  intro i hi
  simp only [cmdN, encodeW, BitVec.getLsbD_extractLsb', BitVec.getLsbD_append]
  interval_cases i <;> simp

/-- A word of format W with no reserved bit set is the encoding of its own fields. -/
theorem encodeW_fields (w : Word) (h : w &&& Format.w.reserved = 0#32) : encodeW (cmdOpcode w) (cmdN w) = w := by
  have h' : ∀ i, (w &&& Format.w.reserved).getLsbD i = false := by simp [h]
  apply BitVec.eq_of_getLsbD_eq
  intro i hi
  have hb := h' i
  simp only [Format.reserved, BitVec.getLsbD_and] at hb
  simp only [encodeW, cmdOpcode, cmdN, BitVec.getLsbD_append, BitVec.getLsbD_extractLsb']
  interval_cases i <;> simp_all

/-! ### Format WV -/

theorem encodeWV_opcode (op : BitVec 8) (n : BitVec 16) (v : Bool) : cmdOpcode (encodeWV op n v) = op := by
  apply BitVec.eq_of_getLsbD_eq
  intro i hi
  simp only [cmdOpcode, encodeWV, BitVec.getLsbD_extractLsb', BitVec.getLsbD_append]
  interval_cases i <;> simp

theorem encodeWV_reserved (op : BitVec 8) (n : BitVec 16) (v : Bool) : encodeWV op n v &&& Format.wv.reserved = 0#32 := by
  apply BitVec.eq_of_getLsbD_eq
  intro i hi
  simp only [Format.reserved, encodeWV, BitVec.getLsbD_and, BitVec.getLsbD_append]
  interval_cases i <;> simp

theorem encodeWV_n (op : BitVec 8) (n : BitVec 16) (v : Bool) : cmdN (encodeWV op n v) = n := by
  apply BitVec.eq_of_getLsbD_eq
  intro i hi
  simp only [cmdN, encodeWV, BitVec.getLsbD_extractLsb', BitVec.getLsbD_append]
  interval_cases i <;> simp

theorem encodeWV_v (op : BitVec 8) (n : BitVec 16) (v : Bool) : cmdV (encodeWV op n v) = v := by
  simp only [cmdV, encodeWV, BitVec.getLsbD_append, BitVec.getLsbD_ofBool]
  simp

/-- A word of format WV with no reserved bit set is the encoding of its own fields. -/
theorem encodeWV_fields (w : Word) (h : w &&& Format.wv.reserved = 0#32) : encodeWV (cmdOpcode w) (cmdN w) (cmdV w) = w := by
  have h' : ∀ i, (w &&& Format.wv.reserved).getLsbD i = false := by simp [h]
  apply BitVec.eq_of_getLsbD_eq
  intro i hi
  have hb := h' i
  simp only [Format.reserved, BitVec.getLsbD_and] at hb
  simp only [encodeWV, cmdOpcode, cmdN, cmdV, BitVec.getLsbD_append, BitVec.getLsbD_extractLsb', BitVec.getLsbD_ofBool]
  interval_cases i <;> simp_all

/-! ### Format V -/

theorem encodeV_opcode (op : BitVec 8) (v : Bool) : cmdOpcode (encodeV op v) = op := by
  apply BitVec.eq_of_getLsbD_eq
  intro i hi
  simp only [cmdOpcode, encodeV, BitVec.getLsbD_extractLsb', BitVec.getLsbD_append]
  interval_cases i <;> simp

theorem encodeV_reserved (op : BitVec 8) (v : Bool) : encodeV op v &&& Format.v.reserved = 0#32 := by
  apply BitVec.eq_of_getLsbD_eq
  intro i hi
  simp only [Format.reserved, encodeV, BitVec.getLsbD_and, BitVec.getLsbD_append]
  interval_cases i <;> simp

theorem encodeV_v (op : BitVec 8) (v : Bool) : cmdV (encodeV op v) = v := by
  simp only [cmdV, encodeV, BitVec.getLsbD_append, BitVec.getLsbD_ofBool]
  simp

/-- A word of format V with no reserved bit set is the encoding of its own fields. -/
theorem encodeV_fields (w : Word) (h : w &&& Format.v.reserved = 0#32) : encodeV (cmdOpcode w) (cmdV w) = w := by
  have h' : ∀ i, (w &&& Format.v.reserved).getLsbD i = false := by simp [h]
  apply BitVec.eq_of_getLsbD_eq
  intro i hi
  have hb := h' i
  simp only [Format.reserved, BitVec.getLsbD_and] at hb
  simp only [encodeV, cmdOpcode, cmdV, BitVec.getLsbD_append, BitVec.getLsbD_extractLsb', BitVec.getLsbD_ofBool]
  interval_cases i <;> simp_all

/-! ### The decoder's two answers -/

/-- What `ofFormat` accepts. -/
theorem ofFormat_ok {f : Format} {w : Word} {i j : Instr} (h : ofFormat f w i = .ok j) :
    w &&& f.reserved = 0#32 ∧ i = j := by
  unfold ofFormat at h
  split at h
  · next hr => exact ⟨hr, by injection h⟩
  · cases h

/-- A word with no reserved bit set is accepted. -/
theorem ofFormat_of_reserved {f : Format} {w : Word} (i : Instr) (h : w &&& f.reserved = 0#32) :
    ofFormat f w i = .ok i := if_pos h

end Sys2Proof
end

