-- ==== Sys2Proof/Laws/Memory.lean ====
section
/-! SUPPORT. The byte storage: what a read gives after a write, that every operation keeps the canonical form, and that
equal reads mean equal storages. -/

namespace Sys2Proof.Machine.Memory

@[simp] theorem read_nil (k : Nat) : Memory.read [] k = unlistedByte := rfl

theorem read_cons (a : Nat) (b : Byte) (m : Memory) (k : Nat) :
    Memory.read ((a, b) :: m) k = if k = a then b else Memory.read m k := rfl

/-- Below its lower bound a storage in canonical form lists nothing. -/
theorem read_of_lt : ∀ (m : Memory) (lo k : Nat), Memory.wfFrom lo m = true → k < lo → Memory.read m k = unlistedByte
  | [], _, _, _, _ => rfl
  | (a, b) :: m, lo, k, h, hk => by
    simp only [Memory.wfFrom, Bool.and_eq_true, decide_eq_true_eq] at h
    rw [read_cons, if_neg (by omega)]
    exact read_of_lt m (a + 1) k h.2 (by omega)

/-- A lower bound may be lowered. -/
theorem wfFrom_mono : ∀ (m : Memory) (lo lo' : Nat), lo' ≤ lo → Memory.wfFrom lo m = true → Memory.wfFrom lo' m = true
  | [], _, _, _, _ => rfl
  | (a, b) :: m, lo, lo', hl, h => by
    simp only [Memory.wfFrom, Bool.and_eq_true, decide_eq_true_eq] at h ⊢
    exact ⟨⟨by omega, h.1.2⟩, h.2⟩

/-- Read after write: the byte written at its own address, the old byte at every other. -/
theorem read_write : ∀ (m : Memory) (lo k : Nat) (v : Byte) (j : Nat), Memory.wfFrom lo m = true →
    Memory.read (Memory.write m k v) j = if j = k then v else Memory.read m j
  | [], lo, k, v, j, _ => by
    by_cases hv : v = unlistedByte <;> by_cases hj : j = k <;> simp [Memory.write, hv, hj, read_cons]
  | (a, b) :: m, lo, k, v, j, h => by
    simp only [Memory.wfFrom, Bool.and_eq_true, decide_eq_true_eq] at h
    have below := read_of_lt m (a + 1)
    unfold Memory.write
    split
    · next hka =>
      by_cases hv : v = unlistedByte
      · by_cases hj : j = k
        · rw [if_pos hv, read_cons, if_neg (by omega), if_pos hj, below j h.2 (by omega), hv]
        · rw [if_pos hv, if_neg hj]
      · rw [if_neg hv, read_cons]
    · split
      · next _ hka =>
        by_cases hv : v = unlistedByte
        · by_cases hj : j = k
          · rw [if_pos hv, if_pos hj, below j h.2 (by omega), hv]
          · rw [if_pos hv, if_neg hj, read_cons, if_neg (by omega)]
        · rw [if_neg hv, read_cons, read_cons]
          by_cases hj : j = k
          · simp [hj]
          · simp only [if_neg hj]; rw [if_neg (by omega)]
      · next h1 h2 =>
        rw [read_cons, read_cons, read_write m (a + 1) k v j h.2]
        by_cases hj : j = a
        · rw [if_pos hj, if_neg (by omega), if_pos hj]
        · rw [if_neg hj, if_neg hj]

/-- A write keeps the canonical form above the smaller of its address and the lower bound. -/
theorem wfFrom_write : ∀ (m : Memory) (lo k : Nat) (v : Byte), lo ≤ k → Memory.wfFrom lo m = true →
    Memory.wfFrom lo (Memory.write m k v) = true
  | [], lo, k, v, hk, _ => by
    by_cases hv : v = unlistedByte <;> simp [Memory.write, hv, Memory.wfFrom, hk]
  | (a, b) :: m, lo, k, v, hk, h => by
    simp only [Memory.wfFrom, Bool.and_eq_true, decide_eq_true_eq] at h
    unfold Memory.write
    split
    · next hka =>
      split
      · simp only [Memory.wfFrom, Bool.and_eq_true, decide_eq_true_eq]; exact h
      · next hv =>
        simp only [Memory.wfFrom, Bool.and_eq_true, decide_eq_true_eq]
        exact ⟨⟨hk, hv⟩, ⟨by omega, h.1.2⟩, h.2⟩
    · split
      · next _ hka =>
        split
        · exact wfFrom_mono m (a + 1) lo (by omega) h.2
        · next hv =>
          simp only [Memory.wfFrom, Bool.and_eq_true, decide_eq_true_eq]
          exact ⟨⟨hk, hv⟩, by subst hka; exact h.2⟩
      · simp only [Memory.wfFrom, Bool.and_eq_true, decide_eq_true_eq]
        exact ⟨h.1, wfFrom_write m (a + 1) k v (by omega) h.2⟩

/-- Every write keeps the canonical form. -/
theorem wf_write (m : Memory) (k : Nat) (v : Byte) (h : m.wf = true) : (m.write k v).wf = true :=
  wfFrom_write m 0 k v (Nat.zero_le k) h

/-- The zero fill of a construction is in canonical form. -/
@[simp] theorem wf_zeroFilled : Memory.wf zeroFilled = true := rfl

/-- Read after write, for a storage in canonical form. -/
theorem read_write_wf (m : Memory) (k : Nat) (v : Byte) (j : Nat) (h : m.wf = true) :
    (m.write k v).read j = if j = k then v else m.read j :=
  read_write m 0 k v j h

/-- Storages in canonical form that read alike are equal. -/
theorem ext_wf : ∀ (m m' : Memory) (lo : Nat), Memory.wfFrom lo m = true → Memory.wfFrom lo m' = true →
    (∀ k, Memory.read m k = Memory.read m' k) → m = m'
  | [], [], _, _, _, _ => rfl
  | [], (a, b) :: m', lo, _, h', hr => by
    simp only [Memory.wfFrom, Bool.and_eq_true, decide_eq_true_eq] at h'
    have h1 : unlistedByte = b := by simpa [read_cons] using hr a
    exact absurd h1.symm h'.1.2
  | (a, b) :: m, [], lo, h, _, hr => by
    simp only [Memory.wfFrom, Bool.and_eq_true, decide_eq_true_eq] at h
    have h1 : b = unlistedByte := by simpa [read_cons] using hr a
    exact absurd h1 h.1.2
  | (a, b) :: m, (a', b') :: m', lo, h, h', hr => by
    simp only [Memory.wfFrom, Bool.and_eq_true, decide_eq_true_eq] at h h'
    rcases Nat.lt_trichotomy a a' with hlt | heq | hgt
    · have h1 := hr a
      rw [read_cons, read_cons, if_pos rfl, if_neg (by omega), read_of_lt m' (a' + 1) a h'.2 (by omega)] at h1
      exact absurd h1 h.1.2
    · subst heq
      have hb := hr a
      rw [read_cons, read_cons, if_pos rfl, if_pos rfl] at hb
      subst hb
      have := ext_wf m m' (a + 1) h.2 h'.2 fun k => by
        by_cases hk : k = a
        · rw [hk, read_of_lt m (a + 1) a h.2 (by omega), read_of_lt m' (a + 1) a h'.2 (by omega)]
        · simpa [read_cons, hk] using hr k
      rw [this]
    · have h1 := hr a'
      rw [read_cons, read_cons, if_pos rfl, if_neg (by omega), read_of_lt m (a + 1) a' h.2 (by omega)] at h1
      exact absurd h1.symm h'.1.2

end Sys2Proof.Machine.Memory
end

