-- ==== Sys2Proof/Laws/State.lean ====
section
/-! SUPPORT. One lemma per field per update of the state, so that no proof unfolds a record update: `respond`,
`takeFault`, `dropCommand`, `finish`, `construct`, `advanceLoad`, `advanceIterator`, `takeReset` and `resetWith`. -/

namespace Sys2Proof.Machine

variable (s : State)

/-! ### respond -/

@[simp] theorem respond_cfg (v : Value) : (s.respond v).cfg = s.cfg := rfl
@[simp] theorem respond_inv (v : Value) : (s.respond v).inv = s.inv := rfl
@[simp] theorem respond_gfReady (v : Value) : (s.respond v).gfReady = s.gfReady := rfl
@[simp] theorem respond_store (v : Value) : (s.respond v).store = s.store := rfl
@[simp] theorem respond_dataSize (v : Value) : (s.respond v).dataSize = s.dataSize := rfl
@[simp] theorem respond_allocBytes (v : Value) : (s.respond v).allocBytes = s.allocBytes := rfl
@[simp] theorem respond_baState (v : Value) : (s.respond v).baState = s.baState := rfl
@[simp] theorem respond_loadPtr (v : Value) : (s.respond v).loadPtr = s.loadPtr := rfl
@[simp] theorem respond_loadLen (v : Value) : (s.respond v).loadLen = s.loadLen := rfl
@[simp] theorem respond_itByte (v : Value) : (s.respond v).itByte = s.itByte := rfl
@[simp] theorem respond_itOff (v : Value) : (s.respond v).itOff = s.itOff := rfl
@[simp] theorem respond_itValid (v : Value) : (s.respond v).itValid = s.itValid := rfl
@[simp] theorem respond_res (v : Value) : (s.respond v).res = s.res := rfl
@[simp] theorem respond_err (v : Value) : (s.respond v).err = s.err := rfl
@[simp] theorem respond_errCode (v : Value) : (s.respond v).errCode = s.errCode := rfl
@[simp] theorem respond_hostIn (v : Value) : (s.respond v).hostIn = s.hostIn := rfl
@[simp] theorem respond_hostOut (v : Value) : (s.respond v).hostOut = s.hostOut ++ [responseWord s.err s.errCode v] := rfl

/-! ### takeFault -/

@[simp] theorem takeFault_cfg (c : ErrCode) : (takeFault c s).cfg = s.cfg := rfl
@[simp] theorem takeFault_inv (c : ErrCode) : (takeFault c s).inv = s.inv := rfl
@[simp] theorem takeFault_gfReady (c : ErrCode) : (takeFault c s).gfReady = s.gfReady := rfl
@[simp] theorem takeFault_store (c : ErrCode) : (takeFault c s).store = s.store := rfl
@[simp] theorem takeFault_dataSize (c : ErrCode) : (takeFault c s).dataSize = s.dataSize := rfl
@[simp] theorem takeFault_allocBytes (c : ErrCode) : (takeFault c s).allocBytes = s.allocBytes := rfl
@[simp] theorem takeFault_baState (c : ErrCode) : (takeFault c s).baState = s.baState := rfl
@[simp] theorem takeFault_loadPtr (c : ErrCode) : (takeFault c s).loadPtr = s.loadPtr := rfl
@[simp] theorem takeFault_loadLen (c : ErrCode) : (takeFault c s).loadLen = s.loadLen := rfl
@[simp] theorem takeFault_itByte (c : ErrCode) : (takeFault c s).itByte = s.itByte := rfl
@[simp] theorem takeFault_itOff (c : ErrCode) : (takeFault c s).itOff = s.itOff := rfl
@[simp] theorem takeFault_itValid (c : ErrCode) : (takeFault c s).itValid = s.itValid := rfl
@[simp] theorem takeFault_res (c : ErrCode) : (takeFault c s).res = s.res := rfl
@[simp] theorem takeFault_err (c : ErrCode) : (takeFault c s).err = true := rfl
@[simp] theorem takeFault_errCode (c : ErrCode) : (takeFault c s).errCode = c.code := rfl
@[simp] theorem takeFault_hostIn (c : ErrCode) : (takeFault c s).hostIn = s.hostIn := rfl
@[simp] theorem takeFault_hostOut (c : ErrCode) : (takeFault c s).hostOut = s.hostOut ++ [responseWord true c.code 0#17] := rfl

/-! ### dropCommand -/

@[simp] theorem dropCommand_cfg : (dropCommand s).cfg = s.cfg := rfl
@[simp] theorem dropCommand_inv : (dropCommand s).inv = s.inv := rfl
@[simp] theorem dropCommand_gfReady : (dropCommand s).gfReady = s.gfReady := rfl
@[simp] theorem dropCommand_store : (dropCommand s).store = s.store := rfl
@[simp] theorem dropCommand_dataSize : (dropCommand s).dataSize = s.dataSize := rfl
@[simp] theorem dropCommand_allocBytes : (dropCommand s).allocBytes = s.allocBytes := rfl
@[simp] theorem dropCommand_baState : (dropCommand s).baState = s.baState := rfl
@[simp] theorem dropCommand_loadPtr : (dropCommand s).loadPtr = s.loadPtr := rfl
@[simp] theorem dropCommand_loadLen : (dropCommand s).loadLen = s.loadLen := rfl
@[simp] theorem dropCommand_itByte : (dropCommand s).itByte = s.itByte := rfl
@[simp] theorem dropCommand_itOff : (dropCommand s).itOff = s.itOff := rfl
@[simp] theorem dropCommand_itValid : (dropCommand s).itValid = s.itValid := rfl
@[simp] theorem dropCommand_res : (dropCommand s).res = s.res := rfl
@[simp] theorem dropCommand_err : (dropCommand s).err = s.err := rfl
@[simp] theorem dropCommand_errCode : (dropCommand s).errCode = s.errCode := rfl
@[simp] theorem dropCommand_hostIn : (dropCommand s).hostIn = s.hostIn := rfl
@[simp] theorem dropCommand_hostOut : (dropCommand s).hostOut = s.hostOut ++ [responseWord s.err s.errCode 0#17] := rfl

/-! ### finish -/

@[simp] theorem finish_cfg (v : Value) : (finish v s).cfg = s.cfg := rfl
@[simp] theorem finish_inv (v : Value) : (finish v s).inv = s.inv := rfl
@[simp] theorem finish_gfReady (v : Value) : (finish v s).gfReady = s.gfReady := rfl
@[simp] theorem finish_store (v : Value) : (finish v s).store = s.store := rfl
@[simp] theorem finish_dataSize (v : Value) : (finish v s).dataSize = s.dataSize := rfl
@[simp] theorem finish_allocBytes (v : Value) : (finish v s).allocBytes = s.allocBytes := rfl
@[simp] theorem finish_baState (v : Value) : (finish v s).baState = s.baState := rfl
@[simp] theorem finish_loadPtr (v : Value) : (finish v s).loadPtr = s.loadPtr := rfl
@[simp] theorem finish_loadLen (v : Value) : (finish v s).loadLen = s.loadLen := rfl
@[simp] theorem finish_itByte (v : Value) : (finish v s).itByte = s.itByte := rfl
@[simp] theorem finish_itOff (v : Value) : (finish v s).itOff = s.itOff := rfl
@[simp] theorem finish_itValid (v : Value) : (finish v s).itValid = s.itValid := rfl
@[simp] theorem finish_res (v : Value) : (finish v s).res = v := rfl
@[simp] theorem finish_err (v : Value) : (finish v s).err = s.err := rfl
@[simp] theorem finish_errCode (v : Value) : (finish v s).errCode = s.errCode := rfl
@[simp] theorem finish_hostIn (v : Value) : (finish v s).hostIn = s.hostIn := rfl
@[simp] theorem finish_hostOut (v : Value) : (finish v s).hostOut = s.hostOut ++ [responseWord s.err s.errCode v] := rfl

/-! ### construct -/

@[simp] theorem construct_cfg (a b l : Nat) (st : BaState) : (construct a b l st s).cfg = s.cfg := rfl
@[simp] theorem construct_inv (a b l : Nat) (st : BaState) : (construct a b l st s).inv = s.inv := rfl
@[simp] theorem construct_gfReady (a b l : Nat) (st : BaState) : (construct a b l st s).gfReady = s.gfReady := rfl
@[simp] theorem construct_store (a b l : Nat) (st : BaState) : (construct a b l st s).store = [] := rfl
@[simp] theorem construct_dataSize (a b l : Nat) (st : BaState) : (construct a b l st s).dataSize = BitVec.ofNat 17 b := rfl
@[simp] theorem construct_allocBytes (a b l : Nat) (st : BaState) : (construct a b l st s).allocBytes = BitVec.ofNat 14 a := rfl
@[simp] theorem construct_baState (a b l : Nat) (st : BaState) : (construct a b l st s).baState = st := rfl
@[simp] theorem construct_loadPtr (a b l : Nat) (st : BaState) : (construct a b l st s).loadPtr = 0#16 := rfl
@[simp] theorem construct_loadLen (a b l : Nat) (st : BaState) : (construct a b l st s).loadLen = BitVec.ofNat 16 l := rfl
@[simp] theorem construct_itByte (a b l : Nat) (st : BaState) : (construct a b l st s).itByte = s.itByte := rfl
@[simp] theorem construct_itOff (a b l : Nat) (st : BaState) : (construct a b l st s).itOff = s.itOff := rfl
@[simp] theorem construct_itValid (a b l : Nat) (st : BaState) : (construct a b l st s).itValid = false := rfl
@[simp] theorem construct_res (a b l : Nat) (st : BaState) : (construct a b l st s).res = s.res := rfl
@[simp] theorem construct_err (a b l : Nat) (st : BaState) : (construct a b l st s).err = s.err := rfl
@[simp] theorem construct_errCode (a b l : Nat) (st : BaState) : (construct a b l st s).errCode = s.errCode := rfl
@[simp] theorem construct_hostIn (a b l : Nat) (st : BaState) : (construct a b l st s).hostIn = s.hostIn := rfl
@[simp] theorem construct_hostOut (a b l : Nat) (st : BaState) : (construct a b l st s).hostOut = s.hostOut := rfl

/-! ### advanceLoad -/

@[simp] theorem advanceLoad_cfg : (advanceLoad s).cfg = s.cfg := rfl
@[simp] theorem advanceLoad_inv : (advanceLoad s).inv = s.inv := rfl
@[simp] theorem advanceLoad_gfReady : (advanceLoad s).gfReady = s.gfReady := rfl
@[simp] theorem advanceLoad_store : (advanceLoad s).store = s.store := rfl
@[simp] theorem advanceLoad_dataSize : (advanceLoad s).dataSize = s.dataSize := rfl
@[simp] theorem advanceLoad_allocBytes : (advanceLoad s).allocBytes = s.allocBytes := rfl
@[simp] theorem advanceLoad_baState : (advanceLoad s).baState = if s.loadPtr + 1#16 = s.loadLen then .ready else s.baState := rfl
@[simp] theorem advanceLoad_loadPtr : (advanceLoad s).loadPtr = s.loadPtr + 1#16 := rfl
@[simp] theorem advanceLoad_loadLen : (advanceLoad s).loadLen = s.loadLen := rfl
@[simp] theorem advanceLoad_itByte : (advanceLoad s).itByte = s.itByte := rfl
@[simp] theorem advanceLoad_itOff : (advanceLoad s).itOff = s.itOff := rfl
@[simp] theorem advanceLoad_itValid : (advanceLoad s).itValid = s.itValid := rfl
@[simp] theorem advanceLoad_res : (advanceLoad s).res = s.res := rfl
@[simp] theorem advanceLoad_err : (advanceLoad s).err = s.err := rfl
@[simp] theorem advanceLoad_errCode : (advanceLoad s).errCode = s.errCode := rfl
@[simp] theorem advanceLoad_hostIn : (advanceLoad s).hostIn = s.hostIn := rfl
@[simp] theorem advanceLoad_hostOut : (advanceLoad s).hostOut = s.hostOut := rfl

/-! ### takeReset -/

@[simp] theorem takeReset_cfg : (takeReset s).cfg = s.cfg := rfl
@[simp] theorem takeReset_inv : (takeReset s).inv = Vector.replicate 256 0x00#8 := rfl
@[simp] theorem takeReset_gfReady : (takeReset s).gfReady = false := rfl
@[simp] theorem takeReset_store : (takeReset s).store = [] := rfl
@[simp] theorem takeReset_dataSize : (takeReset s).dataSize = 0#17 := rfl
@[simp] theorem takeReset_allocBytes : (takeReset s).allocBytes = 0#14 := rfl
@[simp] theorem takeReset_baState : (takeReset s).baState = .none := rfl
@[simp] theorem takeReset_loadPtr : (takeReset s).loadPtr = 0#16 := rfl
@[simp] theorem takeReset_loadLen : (takeReset s).loadLen = 0#16 := rfl
@[simp] theorem takeReset_itByte : (takeReset s).itByte = 0#14 := rfl
@[simp] theorem takeReset_itOff : (takeReset s).itOff = 0#3 := rfl
@[simp] theorem takeReset_itValid : (takeReset s).itValid = false := rfl
@[simp] theorem takeReset_res : (takeReset s).res = 0#17 := rfl
@[simp] theorem takeReset_err : (takeReset s).err = false := rfl
@[simp] theorem takeReset_errCode : (takeReset s).errCode = 0#4 := rfl
@[simp] theorem takeReset_hostIn : (takeReset s).hostIn = s.hostIn := rfl
@[simp] theorem takeReset_hostOut : (takeReset s).hostOut = s.hostOut := rfl

/-! ### advanceIterator -/

@[simp] theorem advanceIterator_cfg : (advanceIterator s).cfg = s.cfg := rfl
@[simp] theorem advanceIterator_inv : (advanceIterator s).inv = s.inv := rfl
@[simp] theorem advanceIterator_gfReady : (advanceIterator s).gfReady = s.gfReady := rfl
@[simp] theorem advanceIterator_store : (advanceIterator s).store = s.store := rfl
@[simp] theorem advanceIterator_dataSize : (advanceIterator s).dataSize = s.dataSize := rfl
@[simp] theorem advanceIterator_allocBytes : (advanceIterator s).allocBytes = s.allocBytes := rfl
@[simp] theorem advanceIterator_baState : (advanceIterator s).baState = s.baState := rfl
@[simp] theorem advanceIterator_loadPtr : (advanceIterator s).loadPtr = s.loadPtr := rfl
@[simp] theorem advanceIterator_loadLen : (advanceIterator s).loadLen = s.loadLen := rfl
@[simp] theorem advanceIterator_itByte :
    (advanceIterator s).itByte = if s.itOff.toNat + 1 = 8 then s.itByte + 1#14 else s.itByte := rfl
@[simp] theorem advanceIterator_itOff :
    (advanceIterator s).itOff = if s.itOff.toNat + 1 = 8 then 0#3 else BitVec.ofNat 3 (s.itOff.toNat + 1) := rfl
@[simp] theorem advanceIterator_itValid : (advanceIterator s).itValid = s.itValid := rfl
@[simp] theorem advanceIterator_res : (advanceIterator s).res = s.res := rfl
@[simp] theorem advanceIterator_err : (advanceIterator s).err = s.err := rfl
@[simp] theorem advanceIterator_errCode : (advanceIterator s).errCode = s.errCode := rfl
@[simp] theorem advanceIterator_hostIn : (advanceIterator s).hostIn = s.hostIn := rfl
@[simp] theorem advanceIterator_hostOut : (advanceIterator s).hostOut = s.hostOut := rfl

/-! ### resetWith -/

@[simp] theorem resetWith_cfg (c : Config) : (State.resetWith c).cfg = c := rfl
@[simp] theorem resetWith_inv (c : Config) : (State.resetWith c).inv = Vector.replicate 256 0x00#8 := rfl
@[simp] theorem resetWith_gfReady (c : Config) : (State.resetWith c).gfReady = false := rfl
@[simp] theorem resetWith_store (c : Config) : (State.resetWith c).store = [] := rfl
@[simp] theorem resetWith_dataSize (c : Config) : (State.resetWith c).dataSize = 0#17 := rfl
@[simp] theorem resetWith_allocBytes (c : Config) : (State.resetWith c).allocBytes = 0#14 := rfl
@[simp] theorem resetWith_baState (c : Config) : (State.resetWith c).baState = .none := rfl
@[simp] theorem resetWith_loadPtr (c : Config) : (State.resetWith c).loadPtr = 0#16 := rfl
@[simp] theorem resetWith_loadLen (c : Config) : (State.resetWith c).loadLen = 0#16 := rfl
@[simp] theorem resetWith_itByte (c : Config) : (State.resetWith c).itByte = 0#14 := rfl
@[simp] theorem resetWith_itOff (c : Config) : (State.resetWith c).itOff = 0#3 := rfl
@[simp] theorem resetWith_itValid (c : Config) : (State.resetWith c).itValid = false := rfl
@[simp] theorem resetWith_res (c : Config) : (State.resetWith c).res = 0#17 := rfl
@[simp] theorem resetWith_err (c : Config) : (State.resetWith c).err = false := rfl
@[simp] theorem resetWith_errCode (c : Config) : (State.resetWith c).errCode = 0#4 := rfl
@[simp] theorem resetWith_hostIn (c : Config) : (State.resetWith c).hostIn = [] := rfl
@[simp] theorem resetWith_hostOut (c : Config) : (State.resetWith c).hostOut = [] := rfl

/-! ### Taking a word from the port -/

@[simp] theorem withFetchWord_hostIn (n w : Nat) :
    (s.withFetchWord n w).hostIn = .cmd (BitVec.ofNat 32 (w % 2 ^ n)) :: s.hostIn := rfl

end Sys2Proof.Machine
end

