-- ==== Sys2Proof/Laws/Ops.lean ====
section
/-! SUPPORT. One lemma per shared operation that says everything it can do: the guards, the byte and bit primitives,
the bit-reference of an index. Proofs cite these instead of unfolding the operation. -/

namespace Sys2Proof.Machine

/-! ### Guards -/

/-- A command not in the halted state goes on. -/
theorem unlessHalted_running {s : State} (k : Result) (h : s.err = false) : unlessHalted s k = k := by
  simp [unlessHalted, h]

/-- In the halted state it is dropped. -/
theorem unlessHalted_halted {s : State} (k : Result) (h : s.err = true) : unlessHalted s k = .next (dropCommand s) := by
  simp [unlessHalted, h]

/-- Everything `unlessHalted` can do. -/
theorem unlessHalted_next {s t : State} {k : Result} (h : unlessHalted s k = .next t) :
    (s.err = true ∧ t = dropCommand s) ∨ (s.err = false ∧ k = .next t) := by
  cases he : s.err
  · exact .inr ⟨rfl, by rwa [unlessHalted_running k he] at h⟩
  · rw [unlessHalted_halted k he] at h
    exact .inl ⟨rfl, by injection h with h; exact h.symm⟩

section
variable {p : Prop} [Decidable p] {c : ErrCode} {s t : State} {k : Result}

/-- A check that holds lets the command go on. -/
theorem require_holds (h : p) : require p c s k = k := if_pos h

/-- A check that fails raises its fault. -/
theorem require_fails (h : ¬ p) : require p c s k = .next (takeFault c s) := if_neg h

/-- Everything `require` can do. -/
theorem require_next (h : require p c s k = .next t) : (¬ p ∧ t = takeFault c s) ∨ (p ∧ k = .next t) := by
  by_cases hp : p
  · exact .inr ⟨hp, by rwa [require_holds hp] at h⟩
  · rw [require_fails hp] at h
    exact .inl ⟨hp, by injection h with h; exact h.symm⟩

end

@[simp] theorem andThen_ok {α : Type} (a : α) (k : α → Result) : andThen (.ok a) k = k a := rfl
@[simp] theorem andThen_error {α : Type} (f : Fault) (k : α → Result) : andThen (.error f) k = .fault f := rfl

/-- Everything `andThen` can do. -/
theorem andThen_next {α : Type} {x : Except Fault α} {k : α → Result} {t : State} (h : andThen x k = .next t) :
    ∃ a, x = .ok a ∧ k a = .next t := by
  cases x with
  | ok a => exact ⟨a, rfl, h⟩
  | error f => cases h

/-! ### Bits of a byte -/

theorem getLsbD_bitMask : ∀ (o : BitVec 3) (j : Fin 8), (bitMask o).getLsbD j = decide (j.val = o.toNat) := by decide

/-- R33: testing the masked bit nonzero reads the bit. -/
theorem and_bitMask_ne_zero : ∀ (o : BitVec 3) (b : Byte), (b &&& bitMask o != 0#8) = b.getLsbD o.toNat := by
  decide +kernel

/-- R34: OR sets exactly the one bit, AND-NOT clears exactly it. -/
theorem getLsbD_bitWrite (o : BitVec 3) (v : Bool) (b : Byte) (j : Nat) (hj : j < 8) :
    (if v then b ||| bitMask o else b &&& ~~~bitMask o).getLsbD j = if j = o.toNat then v else b.getLsbD j := by
  have hm := getLsbD_bitMask o ⟨j, hj⟩
  simp only at hm
  cases v
  · simp only [Bool.false_eq_true, if_false, BitVec.getLsbD_and, BitVec.getLsbD_not, hm, hj]
    by_cases h : j = o.toNat <;> simp [h]
  · simp only [if_true, BitVec.getLsbD_or, hm]
    by_cases h : j = o.toNat <;> simp [h]

/-- The offset of an index's bit-reference. -/
theorem bitRefOf_off (i : Nat) : (bitRefOf i).off.toNat = i % 8 := by
  simp [bitRefOf, Nat.mod_eq_of_lt (Nat.mod_lt i (by decide : 0 < 8))]

@[simp] theorem bitRefOf_byte (i : Nat) : (bitRefOf i).byte = i / 8 := rfl

/-- The iterator's position is the bit-reference of its linear index (R116). -/
theorem itPos_eq (s : State) : s.itPos = bitRefOf s.itIndex := by
  have h := s.itOff.isLt
  simp only [State.itPos, State.itIndex, bitRefOf, BitRef.mk.injEq]
  refine ⟨by omega, BitVec.eq_of_toNat_eq ?_⟩
  simp
  omega

/-- R117: two bit-references are equal exactly when their linear indices are. -/
theorem bitRefOf_inj {i j : Nat} : bitRefOf i = bitRefOf j ↔ i = j := by
  constructor
  · intro h
    have h1 : i / 8 = j / 8 := congrArg BitRef.byte h
    have h2 := congrArg (fun r => r.off.toNat) h
    simp only [bitRefOf_off] at h2
    omega
  · rintro rfl; rfl

/-- R115, R116: the iterator is at End() exactly when its linear index is DATA_SIZE. -/
theorem itPos_eq_endPos (s : State) : s.itPos = s.endPos ↔ s.itIndex = s.dataSize.toNat := by
  rw [itPos_eq]; exact bitRefOf_inj

/-! ### The byte and bit primitives -/

/-- A read below ALLOC_BYTES gives the byte. -/
theorem memRead_ok {s : State} {k : Nat} (h : k < s.allocBytes.toNat) : memRead s k = .ok (s.byteAt k) := if_pos h

/-- A write below ALLOC_BYTES writes the byte. -/
theorem memWrite_ok {s : State} {k : Nat} (v : Byte) (h : k < s.allocBytes.toNat) :
    memWrite s k v = .ok { s with store := s.store.write k v } := if_pos h

/-- Everything `memWrite` can do. -/
theorem memWrite_cases {s u : State} {k : Nat} {v : Byte} (h : memWrite s k v = .ok u) :
    k < s.allocBytes.toNat ∧ u = { s with store := s.store.write k v } := by
  unfold memWrite at h
  split at h
  · next hk => exact ⟨hk, by injection h with h; exact h.symm⟩
  · cases h

/-- R33, R36: reading the bit-reference of index `i` reads bit `i`. -/
theorem bitRead_bitRefOf {s : State} {i : Nat} (h : i / 8 < s.allocBytes.toNat) :
    bitRead s (bitRefOf i) = .ok (s.bitAt i) := by
  rw [bitRead, bitRefOf_byte, memRead_ok h]
  show Except.ok (s.byteAt (i / 8) &&& bitMask (bitRefOf i).off != 0#8) = _
  rw [and_bitMask_ne_zero, bitRefOf_off]
  rfl

/-- The byte a bit write stores (R34). -/
def writtenByte (s : State) (r : BitRef) (v : Bool) : Byte :=
  if v then s.byteAt r.byte ||| bitMask r.off else s.byteAt r.byte &&& ~~~bitMask r.off

/-- A bit write below ALLOC_BYTES rewrites its byte. -/
theorem bitWrite_ok {s : State} {r : BitRef} (v : Bool) (h : r.byte < s.allocBytes.toNat) :
    bitWrite s r v = .ok { s with store := s.store.write r.byte (writtenByte s r v) } := by
  rw [bitWrite, memRead_ok h]
  exact memWrite_ok _ h

/-- The same at the bit-reference of index `i`. -/
theorem bitWrite_bitRefOf {s : State} {i : Nat} (v : Bool) (h : i / 8 < s.allocBytes.toNat) :
    bitWrite s (bitRefOf i) v = .ok { s with store := s.store.write (i / 8) (writtenByte s (bitRefOf i) v) } :=
  bitWrite_ok v h

/-- Everything `bitWrite` can do. -/
theorem bitWrite_cases {s u : State} {r : BitRef} {v : Bool} (h : bitWrite s r v = .ok u) :
    r.byte < s.allocBytes.toNat ∧ u = { s with store := s.store.write r.byte (writtenByte s r v) } := by
  by_cases hk : r.byte < s.allocBytes.toNat
  · rw [bitWrite_ok v hk] at h
    exact ⟨hk, by injection h with h; exact h.symm⟩
  · simp [bitWrite, memRead, hk] at h

/-- Everything `bitRead` can do. -/
theorem bitRead_cases {s : State} {r : BitRef} {b : Bool} (h : bitRead s r = .ok b) :
    r.byte < s.allocBytes.toNat ∧ b = (s.byteAt r.byte).getLsbD r.off.toNat := by
  by_cases hk : r.byte < s.allocBytes.toNat
  · simp only [bitRead, memRead_ok hk, and_bitMask_ne_zero] at h
    exact ⟨hk, by injection h with h; exact h.symm⟩
  · simp [bitRead, memRead, hk] at h

/-- The bytes after a byte write, in a canonical storage. -/
theorem byteAt_write {s : State} (k : Nat) (v : Byte) (j : Nat) (h : s.store.wf = true) :
    ({ s with store := s.store.write k v } : State).byteAt j = if j = k then v else s.byteAt j :=
  Memory.read_write_wf s.store k v j h

/-- R34: after a bit write the one bit holds the value and every other bit of the array is as before. -/
theorem bitAt_bitWrite {s : State} (i : Nat) (v : Bool) (j : Nat) (h : s.store.wf = true) :
    ({ s with store := s.store.write (i / 8) (writtenByte s (bitRefOf i) v) } : State).bitAt j =
      if j = i then v else s.bitAt j := by
  unfold State.bitAt
  rw [byteAt_write _ _ _ h]
  by_cases hb : j / 8 = i / 8
  · rw [if_pos hb, writtenByte, getLsbD_bitWrite _ _ _ _ (Nat.mod_lt j (by decide)), bitRefOf_off, bitRefOf_byte, hb]
    have : j % 8 = i % 8 ↔ j = i := by omega
    simp only [this]
  · rw [if_neg hb, if_neg (fun hji => hb (by rw [hji]))]

end Sys2Proof.Machine
end

