-- ==== Sys2Proof/Laws/Exec.lean ====
section
/-! SUPPORT. What a command can do, said once. `Effect i s u v` is what the rule of command `i` does when all its checks
hold: the conditions under which it executes, the state `u` after its own writes and its value `v`. `exec_cases` says
that a command that ends in a next state is dropped, answers STATUS, raises a fault, or completes with its effect. -/

namespace Sys2Proof.Machine

/-- The effect of each command's rule once its checks hold. -/
def Effect : Instr → State → State → Value → Prop
  | .sysStatus, _, _, _ => False
  | .gfNew, s, u, v => u = { s with inv := buildInv, gfReady := true } ∧ v = 0#17
  | .gfAdd a b, s, u, v => s.gfReady = true ∧ u = s ∧ v = byteValue (gfAdd a b)
  | .gfSub a b, s, u, v => s.gfReady = true ∧ u = s ∧ v = byteValue (gfSub a b)
  | .gfMul a b, s, u, v => s.gfReady = true ∧ u = s ∧ v = byteValue (gfMul a b)
  | .gfDiv a b, s, u, v => s.gfReady = true ∧ u = s ∧ v = byteValue (gfDiv s.inv a b)
  | .gfInv d, s, u, v => s.gfReady = true ∧ u = s ∧ v = byteValue (invRead s.inv d)
  | .baNewBytes n, s, u, v => n.toNat ≤ s.cfg.baCapBytes ∧ v = 0#17 ∧
      u = construct n.toNat (8 * n.toNat) n.toNat (if n = 0#16 then .ready else .loadBytes) s
  | .baNewCount n, s, u, v => countedBytes n ≤ s.cfg.baCapBytes ∧ v = 0#17 ∧
      u = construct (countedBytes n) n.toNat 0 .ready s
  | .baNewStr n, s, u, v => countedBytes n ≤ s.cfg.baCapBytes ∧ v = 0#17 ∧
      u = construct (countedBytes n) n.toNat n.toNat (if n = 0#16 then .ready else .loadStr) s
  | .baPushByte d, s, u, v => s.baState = .loadBytes ∧ v = 0#17 ∧ s.loadPtr.toNat < s.allocBytes.toNat ∧
      u = advanceLoad { s with store := s.store.write s.loadPtr.toNat d }
  | .baPushChar d, s, u, v => s.baState = .loadStr ∧ v = 0#17 ∧ s.loadPtr.toNat / 8 < s.allocBytes.toNat ∧
      u = advanceLoad { s with store := s.store.write (s.loadPtr.toNat / 8) (writtenByte s (bitRefOf s.loadPtr.toNat) (d == charOne)) }
  | .baGet n, s, u, v => s.baState = .ready ∧ n.toNat < s.dataSize.toNat ∧ u = s ∧ v = boolValue (s.bitAt n.toNat)
  | .baSet n b, s, u, v => s.baState = .ready ∧ n.toNat < s.dataSize.toNat ∧ v = 0#17 ∧
      n.toNat / 8 < s.allocBytes.toNat ∧
      u = { s with store := s.store.write (n.toNat / 8) (writtenByte s (bitRefOf n.toNat) b) }
  | .baXor n b, s, u, v => s.baState = .ready ∧ n.toNat < s.dataSize.toNat ∧ u = s ∧
      v = boolValue (s.bitAt n.toNat ^^ b)
  | .baSize, s, u, v => s.baState = .ready ∧ u = s ∧ v = s.dataSize
  | .itBegin, s, u, v => s.baState = .ready ∧ v = 0#17 ∧ u = { s with itByte := 0#14, itOff := 0#3, itValid := true }
  | .itNext, s, u, v => s.baState = .ready ∧ s.itValid = true ∧ s.itIndex ≠ s.dataSize.toNat ∧ v = 0#17 ∧
      u = advanceIterator s
  | .itGet, s, u, v => s.baState = .ready ∧ s.itValid = true ∧ s.itIndex < s.dataSize.toNat ∧ u = s ∧
      v = boolValue (s.bitAt s.itIndex)
  | .itSet b, s, u, v => s.baState = .ready ∧ s.itValid = true ∧ s.itIndex < s.dataSize.toNat ∧ v = 0#17 ∧
      s.itIndex / 8 < s.allocBytes.toNat ∧
      u = { s with store := s.store.write (s.itIndex / 8) (writtenByte s (bitRefOf s.itIndex) b) }
  | .itXor b, s, u, v => s.baState = .ready ∧ s.itValid = true ∧ s.itIndex < s.dataSize.toNat ∧ u = s ∧
      v = boolValue (s.bitAt s.itIndex ^^ b)
  | .itAtEnd, s, u, v => s.baState = .ready ∧ s.itValid = true ∧ u = s ∧
      v = boolValue (decide (s.itIndex = s.dataSize.toNat))

/-- How a command ends when it ends in a next state. -/
inductive Ends (i : Instr) (s t : State) : Prop where
  /-- Dropped in the halted state (R132). -/
  | dropped (halted : s.err = true) (ne : i ≠ .sysStatus) (eq : t = dropCommand s)
  /-- SYS_STATUS (R125). -/
  | status (is : i = .sysStatus) (eq : t = s.respond s.status)
  /-- A fault raised (R131). -/
  | raised (running : s.err = false) (ne : i ≠ .sysStatus) (c : ErrCode) (eq : t = takeFault c s)
  /-- Completed with its effect (R126). -/
  | completed (running : s.err = false) (ne : i ≠ .sysStatus) (u : State) (v : Value) (effect : Effect i s u v)
      (eq : t = finish v u)

section
variable {i : Instr} {s t : State}

/-- A body under `unlessHalted`. -/
theorem Ends.of_unlessHalted {k : Result} (ne : i ≠ .sysStatus) (h : unlessHalted s k = .next t)
    (hk : s.err = false → k = .next t → Ends i s t) : Ends i s t := by
  rcases unlessHalted_next h with ⟨he, rfl⟩ | ⟨he, h⟩
  · exact .dropped he ne rfl
  · exact hk he h

/-- A body under a check. -/
theorem Ends.of_require {p : Prop} [Decidable p] {c : ErrCode} {k : Result} (ne : i ≠ .sysStatus) (he : s.err = false)
    (h : require p c s k = .next t) (hk : p → k = .next t → Ends i s t) : Ends i s t := by
  rcases require_next h with ⟨_, rfl⟩ | ⟨hp, h⟩
  · exact .raised he ne c rfl
  · exact hk hp h

/-- A body that completes. -/
theorem Ends.of_finish {u : State} {v : Value} (ne : i ≠ .sysStatus) (he : s.err = false) (e : Effect i s u v)
    (h : (.next (finish v u) : Result) = .next t) : Ends i s t :=
  .completed he ne u v e (by injection h with h; exact h.symm)

theorem Ends.of_gfValue {b : Byte} (ne : i ≠ .sysStatus) (h : gfValue s b = .next t)
    (e : s.gfReady = true → Effect i s s (byteValue b)) : Ends i s t :=
  .of_unlessHalted ne h fun he h => .of_require ne he h fun hr h => .of_finish ne he (e hr) h

theorem Ends.of_indexed {n : BitVec 16} {k : Result} (ne : i ≠ .sysStatus) (h : indexed n s k = .next t)
    (hk : s.err = false → s.baState = .ready → n.toNat < s.dataSize.toNat → k = .next t → Ends i s t) : Ends i s t :=
  .of_unlessHalted ne h fun he h => .of_require ne he h fun hr h => .of_require ne he h fun hn h => hk he hr hn h

theorem Ends.of_withIterator {k : Result} (ne : i ≠ .sysStatus) (h : withIterator s k = .next t)
    (hk : s.err = false → s.baState = .ready → s.itValid = true → k = .next t → Ends i s t) : Ends i s t :=
  .of_unlessHalted ne h fun he h => .of_require ne he h fun hr h => .of_require ne he h fun hv h => hk he hr hv h

theorem Ends.of_atIterator {k : Result} (ne : i ≠ .sysStatus) (h : atIterator s k = .next t)
    (hk : s.err = false → s.baState = .ready → s.itValid = true → s.itIndex < s.dataSize.toNat → k = .next t →
      Ends i s t) : Ends i s t :=
  .of_withIterator ne h fun he hr hv h => .of_require ne he h fun hn h => hk he hr hv hn h

end

/-- The value a bit read gives. -/
theorem bitRead_bitRefOf_eq {s : State} {i : Nat} {b : Bool} (h : bitRead s (bitRefOf i) = .ok b) : b = s.bitAt i := by
  obtain ⟨_, rfl⟩ := bitRead_cases h
  simp [State.bitAt, bitRefOf_off]

/-- Everything a command can do when it ends in a next state. -/
theorem exec_cases {i : Instr} {s t : State} (h : exec i s = .next t) : Ends i s t := by
  cases i with
  | sysStatus => exact .status rfl (by injection h with h; exact h.symm)
  | gfNew => exact .of_unlessHalted (by simp) h fun he h => .of_finish (by simp) he ⟨rfl, rfl⟩ h
  | gfAdd a b => exact .of_gfValue (by simp) h fun hr => ⟨hr, rfl, rfl⟩
  | gfSub a b => exact .of_gfValue (by simp) h fun hr => ⟨hr, rfl, rfl⟩
  | gfMul a b => exact .of_gfValue (by simp) h fun hr => ⟨hr, rfl, rfl⟩
  | gfDiv a b => exact .of_gfValue (by simp) h fun hr => ⟨hr, rfl, rfl⟩
  | gfInv d => exact .of_gfValue (by simp) h fun hr => ⟨hr, rfl, rfl⟩
  | baNewBytes n =>
    exact .of_unlessHalted (by simp) h fun he h => .of_require (by simp) he h fun hc h =>
      .of_finish (by simp) he ⟨hc, rfl, rfl⟩ h
  | baNewCount n =>
    exact .of_unlessHalted (by simp) h fun he h => .of_require (by simp) he h fun hc h =>
      .of_finish (by simp) he ⟨hc, rfl, rfl⟩ h
  | baNewStr n =>
    exact .of_unlessHalted (by simp) h fun he h => .of_require (by simp) he h fun hc h =>
      .of_finish (by simp) he ⟨hc, rfl, rfl⟩ h
  | baPushByte d =>
    refine .of_unlessHalted (by simp) h fun he h => .of_require (by simp) he h fun hs h => ?_
    obtain ⟨u, hu, h⟩ := andThen_next h
    obtain ⟨hk, rfl⟩ := memWrite_cases hu
    exact .of_finish (by simp) he ⟨hs, rfl, hk, rfl⟩ h
  | baPushChar d =>
    refine .of_unlessHalted (by simp) h fun he h => .of_require (by simp) he h fun hs h => ?_
    obtain ⟨u, hu, h⟩ := andThen_next h
    obtain ⟨hk, rfl⟩ := bitWrite_cases hu
    exact .of_finish (by simp) he ⟨hs, rfl, hk, rfl⟩ h
  | baGet n =>
    refine .of_indexed (by simp) h fun he hs hn h => ?_
    obtain ⟨b, hb, h⟩ := andThen_next h
    exact .of_finish (by simp) he ⟨hs, hn, rfl, by rw [bitRead_bitRefOf_eq hb]⟩ h
  | baSet n v =>
    refine .of_indexed (by simp) h fun he hs hn h => ?_
    obtain ⟨u, hu, h⟩ := andThen_next h
    obtain ⟨hk, rfl⟩ := bitWrite_cases hu
    exact .of_finish (by simp) he ⟨hs, hn, rfl, hk, rfl⟩ h
  | baXor n v =>
    refine .of_indexed (by simp) h fun he hs hn h => ?_
    obtain ⟨b, hb, h⟩ := andThen_next h
    exact .of_finish (by simp) he ⟨hs, hn, rfl, by rw [bitRead_bitRefOf_eq hb]⟩ h
  | baSize =>
    exact .of_unlessHalted (by simp) h fun he h => .of_require (by simp) he h fun hs h =>
      .of_finish (by simp) he ⟨hs, rfl, rfl⟩ h
  | itBegin =>
    exact .of_unlessHalted (by simp) h fun he h => .of_require (by simp) he h fun hs h =>
      .of_finish (by simp) he ⟨hs, rfl, rfl⟩ h
  | itNext =>
    exact .of_withIterator (by simp) h fun he hs hv h => .of_require (by simp) he h fun hn h =>
      .of_finish (by simp) he ⟨hs, hv, fun e => hn ((itPos_eq_endPos s).2 e), rfl, rfl⟩ h
  | itGet =>
    refine .of_atIterator (by simp) h fun he hs hv hn h => ?_
    obtain ⟨b, hb, h⟩ := andThen_next h
    rw [itPos_eq] at hb
    exact .of_finish (by simp) he ⟨hs, hv, hn, rfl, by rw [bitRead_bitRefOf_eq hb]⟩ h
  | itSet v =>
    refine .of_atIterator (by simp) h fun he hs hv hn h => ?_
    obtain ⟨u, hu, h⟩ := andThen_next h
    rw [itPos_eq] at hu
    obtain ⟨hk, rfl⟩ := bitWrite_cases hu
    exact .of_finish (by simp) he ⟨hs, hv, hn, rfl, hk, rfl⟩ h
  | itXor v =>
    refine .of_atIterator (by simp) h fun he hs hv hn h => ?_
    obtain ⟨b, hb, h⟩ := andThen_next h
    rw [itPos_eq] at hb
    exact .of_finish (by simp) he ⟨hs, hv, hn, rfl, by rw [bitRead_bitRefOf_eq hb]⟩ h
  | itAtEnd =>
    refine .of_withIterator (by simp) h fun he hs hv h => .of_finish (by simp) he ⟨hs, hv, rfl, ?_⟩ h
    simp only [itPos_eq_endPos]

/-- Everything a step can do when it ends in a next state. -/
theorem step_cases {s t : State} (h : step s = .next t) :
    (s.hostIn = [] ∧ t = s) ∨
    (∃ rest, s.hostIn = .rst :: rest ∧ t = takeReset { s with hostIn := rest }) ∨
    (∃ w rest i, s.hostIn = .cmd w :: rest ∧ decode w = .ok i ∧ Ends i { s with hostIn := rest } t) ∨
    (∃ w rest e, s.hostIn = .cmd w :: rest ∧ decode w = .error e ∧
      ((s.err = true ∧ t = dropCommand { s with hostIn := rest }) ∨
        (s.err = false ∧ t = takeFault .illegal { s with hostIn := rest }))) := by
  unfold step at h
  split at h
  · next hp => exact .inl ⟨hp, by injection h with h; exact h.symm⟩
  · next rest hp => exact .inr (.inl ⟨rest, hp, by injection h with h; exact h.symm⟩)
  · next w rest hp =>
    split at h
    · next i hd => exact .inr (.inr (.inl ⟨w, rest, i, hp, hd, exec_cases h⟩))
    · next e hd =>
      refine .inr (.inr (.inr ⟨w, rest, e, hp, hd, ?_⟩))
      rcases unlessHalted_next h with h | ⟨he, h⟩
      · exact .inl h
      · exact .inr ⟨he, by injection h with h; exact h.symm⟩

end Sys2Proof.Machine
end

