-- ==== Sys2Proof/Laws/PerInstr.lean ====
section
/-! SUPPORT. The family `EncodedRow`, one lemma per constructor of `Instr`: the command's word selects the row of the opcode
table (spec/30_encoding.md R53) that carries the command's mnemonic. -/

namespace Sys2Proof

/-! ### What a row's mask leaves of a word (R51) -/

theorem encodeN_masked (op : BitVec 8) : encodeN op &&& 0xFFFFFFFF#32 = op ++ 0#24 := by
  apply BitVec.eq_of_getLsbD_eq
  intro i hi
  simp only [encodeN, BitVec.getLsbD_and, BitVec.getLsbD_append]
  interval_cases i <;> simp

theorem encodeG_masked (op : BitVec 8) (a b : Byte) : encodeG op a b &&& 0xFFFF0000#32 = op ++ 0#24 := by
  apply BitVec.eq_of_getLsbD_eq
  intro i hi
  simp only [encodeG, BitVec.getLsbD_and, BitVec.getLsbD_append]
  interval_cases i <;> simp

theorem encodeB_masked (op : BitVec 8) (d : Byte) : encodeB op d &&& 0xFFFFFF00#32 = op ++ 0#24 := by
  apply BitVec.eq_of_getLsbD_eq
  intro i hi
  simp only [encodeB, BitVec.getLsbD_and, BitVec.getLsbD_append]
  interval_cases i <;> simp

theorem encodeW_masked (op : BitVec 8) (n : BitVec 16) : encodeW op n &&& 0xFFFF0000#32 = op ++ 0#24 := by
  apply BitVec.eq_of_getLsbD_eq
  intro i hi
  simp only [encodeW, BitVec.getLsbD_and, BitVec.getLsbD_append]
  interval_cases i <;> simp

theorem encodeWV_masked (op : BitVec 8) (n : BitVec 16) (v : Bool) : encodeWV op n v &&& 0xFFFE0000#32 = op ++ 0#24 := by
  apply BitVec.eq_of_getLsbD_eq
  intro i hi
  simp only [encodeWV, BitVec.getLsbD_and, BitVec.getLsbD_append, BitVec.getLsbD_ofBool]
  interval_cases i <;> simp

theorem encodeV_masked (op : BitVec 8) (v : Bool) : encodeV op v &&& 0xFFFEFFFF#32 = op ++ 0#24 := by
  apply BitVec.eq_of_getLsbD_eq
  intro i hi
  simp only [encodeV, BitVec.getLsbD_and, BitVec.getLsbD_append, BitVec.getLsbD_ofBool]
  interval_cases i <;> simp

/-- A word whose masked bits are the row's pattern selects the row. -/
theorem selects_of_masked {m : String} {p k w : Word} (h : w &&& k = p) : OpRow.selects ⟨m, p, k⟩ w = true := by
  simp [OpRow.selects, h]

end Sys2Proof

namespace Sys2Proof.Laws.EncodedRow

/-- The word of the command selects the row of its mnemonic. -/
def Statement (i : Instr) : Prop := ∃ r ∈ opcodeTable, r.mnemonic = i.mnemonic ∧ r.selects (encode i) = true

theorem sysStatus : Statement .sysStatus :=
  ⟨⟨"SYS_STATUS", 0x01000000#32, 0xFFFFFFFF#32⟩, by decide, rfl, selects_of_masked (encodeN_masked 0x01#8)⟩

theorem gfNew : Statement .gfNew :=
  ⟨⟨"GF_NEW", 0x10000000#32, 0xFFFFFFFF#32⟩, by decide, rfl, selects_of_masked (encodeN_masked 0x10#8)⟩

theorem gfAdd (a b : Byte) : Statement (.gfAdd a b) :=
  ⟨⟨"GF_ADD", 0x11000000#32, 0xFFFF0000#32⟩, by decide, rfl, selects_of_masked (encodeG_masked 0x11#8 a b)⟩

theorem gfSub (a b : Byte) : Statement (.gfSub a b) :=
  ⟨⟨"GF_SUB", 0x12000000#32, 0xFFFF0000#32⟩, by decide, rfl, selects_of_masked (encodeG_masked 0x12#8 a b)⟩

theorem gfMul (a b : Byte) : Statement (.gfMul a b) :=
  ⟨⟨"GF_MUL", 0x13000000#32, 0xFFFF0000#32⟩, by decide, rfl, selects_of_masked (encodeG_masked 0x13#8 a b)⟩

theorem gfDiv (a b : Byte) : Statement (.gfDiv a b) :=
  ⟨⟨"GF_DIV", 0x14000000#32, 0xFFFF0000#32⟩, by decide, rfl, selects_of_masked (encodeG_masked 0x14#8 a b)⟩

theorem gfInv (d : Byte) : Statement (.gfInv d) :=
  ⟨⟨"GF_INV", 0x15000000#32, 0xFFFFFF00#32⟩, by decide, rfl, selects_of_masked (encodeB_masked 0x15#8 d)⟩

theorem baNewBytes (n : BitVec 16) : Statement (.baNewBytes n) :=
  ⟨⟨"BA_NEW_BYTES", 0x20000000#32, 0xFFFF0000#32⟩, by decide, rfl, selects_of_masked (encodeW_masked 0x20#8 n)⟩

theorem baNewCount (n : BitVec 16) : Statement (.baNewCount n) :=
  ⟨⟨"BA_NEW_COUNT", 0x21000000#32, 0xFFFF0000#32⟩, by decide, rfl, selects_of_masked (encodeW_masked 0x21#8 n)⟩

theorem baNewStr (n : BitVec 16) : Statement (.baNewStr n) :=
  ⟨⟨"BA_NEW_STR", 0x22000000#32, 0xFFFF0000#32⟩, by decide, rfl, selects_of_masked (encodeW_masked 0x22#8 n)⟩

theorem baPushByte (d : Byte) : Statement (.baPushByte d) :=
  ⟨⟨"BA_PUSH_BYTE", 0x23000000#32, 0xFFFFFF00#32⟩, by decide, rfl, selects_of_masked (encodeB_masked 0x23#8 d)⟩

theorem baPushChar (d : Byte) : Statement (.baPushChar d) :=
  ⟨⟨"BA_PUSH_CHAR", 0x24000000#32, 0xFFFFFF00#32⟩, by decide, rfl, selects_of_masked (encodeB_masked 0x24#8 d)⟩

theorem baGet (n : BitVec 16) : Statement (.baGet n) :=
  ⟨⟨"BA_GET", 0x28000000#32, 0xFFFF0000#32⟩, by decide, rfl, selects_of_masked (encodeW_masked 0x28#8 n)⟩

theorem baSet (n : BitVec 16) (v : Bool) : Statement (.baSet n v) :=
  ⟨⟨"BA_SET", 0x29000000#32, 0xFFFE0000#32⟩, by decide, rfl, selects_of_masked (encodeWV_masked 0x29#8 n v)⟩

theorem baXor (n : BitVec 16) (v : Bool) : Statement (.baXor n v) :=
  ⟨⟨"BA_XOR", 0x2A000000#32, 0xFFFE0000#32⟩, by decide, rfl, selects_of_masked (encodeWV_masked 0x2A#8 n v)⟩

theorem baSize : Statement .baSize :=
  ⟨⟨"BA_SIZE", 0x2B000000#32, 0xFFFFFFFF#32⟩, by decide, rfl, selects_of_masked (encodeN_masked 0x2B#8)⟩

theorem itBegin : Statement .itBegin :=
  ⟨⟨"IT_BEGIN", 0x30000000#32, 0xFFFFFFFF#32⟩, by decide, rfl, selects_of_masked (encodeN_masked 0x30#8)⟩

theorem itNext : Statement .itNext :=
  ⟨⟨"IT_NEXT", 0x31000000#32, 0xFFFFFFFF#32⟩, by decide, rfl, selects_of_masked (encodeN_masked 0x31#8)⟩

theorem itGet : Statement .itGet :=
  ⟨⟨"IT_GET", 0x32000000#32, 0xFFFFFFFF#32⟩, by decide, rfl, selects_of_masked (encodeN_masked 0x32#8)⟩

theorem itSet (v : Bool) : Statement (.itSet v) :=
  ⟨⟨"IT_SET", 0x33000000#32, 0xFFFEFFFF#32⟩, by decide, rfl, selects_of_masked (encodeV_masked 0x33#8 v)⟩

theorem itXor (v : Bool) : Statement (.itXor v) :=
  ⟨⟨"IT_XOR", 0x34000000#32, 0xFFFEFFFF#32⟩, by decide, rfl, selects_of_masked (encodeV_masked 0x34#8 v)⟩

theorem itAtEnd : Statement .itAtEnd :=
  ⟨⟨"IT_ATEND", 0x35000000#32, 0xFFFFFFFF#32⟩, by decide, rfl, selects_of_masked (encodeN_masked 0x35#8)⟩

end Sys2Proof.Laws.EncodedRow
end

