-- ==== Sys2Proof/Laws/Safety.lean ====
section
/-! SUPPORT. What the invariant does not depend on, and that one byte write keeps it. -/

namespace Sys2Proof.Machine

/-- The invariant says nothing of RES and the port, and of the fault record only that it is empty or holds a code. -/
theorem Inv.of_record {s : State} (hi : Inv s) (e : Bool) (c : BitVec 4) (r : Value) (i : List HostEvent) (o : List Word)
    (h : e = s.err ∧ c = s.errCode ∨ e = true ∧ 1 ≤ c.toNat ∧ c.toNat ≤ 8) :
    Inv { s with err := e, errCode := c, res := r, hostIn := i, hostOut := o } where
  alloc_le_cap := hi.alloc_le_cap
  size_le_alloc := hi.size_le_alloc
  none_empty := hi.none_empty
  sizes := hi.sizes
  load_bytes := hi.load_bytes
  load_str := hi.load_str
  iterator := hi.iterator
  no_fault := fun he => by
    rcases h with ⟨rfl, rfl⟩ | ⟨rfl, _⟩
    · exact hi.no_fault he
    · cases he
  fault_code := fun he => by
    rcases h with ⟨rfl, rfl⟩ | ⟨_, hc⟩
    · exact hi.fault_code he
    · exact hc
  table := hi.table
  bits_backed := hi.bits_backed
  store_wf := hi.store_wf
  store_bounded := hi.store_bounded

/-- A byte write inside the array keeps the invariant. -/
theorem Inv.of_write {s : State} (hi : Inv s) (k : Nat) (v : Byte) (hk : k < s.allocBytes.toNat) :
    Inv { s with store := s.store.write k v } where
  alloc_le_cap := hi.alloc_le_cap
  size_le_alloc := hi.size_le_alloc
  none_empty := hi.none_empty
  sizes := hi.sizes
  load_bytes := hi.load_bytes
  load_str := hi.load_str
  iterator := hi.iterator
  no_fault := hi.no_fault
  fault_code := hi.fault_code
  table := hi.table
  bits_backed := hi.bits_backed
  store_wf := Memory.wf_write _ _ _ hi.store_wf
  store_bounded := fun j (hj : s.allocBytes.toNat ≤ j) => by
    rw [byteAt_write k v j hi.store_wf, if_neg (by omega)]
    exact hi.store_bounded j hj

/-- The bits beyond DATA_SIZE depend on STORE and DATA_SIZE alone. -/
theorem PadZero.congr {s t : State} (h : PadZero s) (hs : t.store = s.store) (hd : t.dataSize = s.dataSize) :
    PadZero t := fun i hi => by
  have := h i (hd ▸ hi)
  rwa [State.bitAt, State.byteAt, ← hs] at this

end Sys2Proof.Machine
end

