-- ==== Sys2Proof/Tests/Slice0.lean ====
section
/-! SUPPORT. The model's own tests. Expected values are the spec's: the encodings of R53 and R60, the vectors of
spec/95_test_vectors.md and the examples of the command rules. The witnesses at the end give, for every statement with
hypotheses, states and operands that meet them, at the boundary values of each clause. -/

namespace Sys2Proof.Tests

open Sys2Proof.Machine

/-! ### What the checks refuse -/

theorem wf_baStr (cs : List Byte) : (Pseudo.baStr cs).wf = decide (cs.length ≤ 65535) := rfl

theorem wf_baBytes (ds : List Byte) : (Pseudo.baBytes ds).wf = decide (ds.length ≤ 8192) := rfl

/-- BA_STR takes at most 65535 characters (R59). -/
theorem test_wf_refuses_long_string : (Pseudo.baStr (List.replicate 65536 0x31#8)).wf = false := by
  rw [wf_baStr, List.length_replicate]; rfl

/-- BA_BYTES takes at most 8192 bytes (R59). -/
theorem test_wf_refuses_long_buffer : (Pseudo.baBytes (List.replicate 8193 0x00#8)).wf = false := by
  rw [wf_baBytes, List.length_replicate]; rfl

/-- The longest forms pass. -/
theorem test_wf_accepts_longest :
    (Pseudo.baStr (List.replicate 65535 0x31#8)).wf = true ∧ (Pseudo.baBytes (List.replicate 8192 0x00#8)).wf = true := by
  rw [wf_baStr, wf_baBytes, List.length_replicate, List.length_replicate]; exact ⟨rfl, rfl⟩

/-- The illegal words of R60, of section 6.7 and the opcode 0xFF of R54 select no row. -/
theorem test_illegal_words_refused :
    [0x00000000#32, 0x10000001#32, 0x13010000#32, 0x28010002#32, 0x33010001#32, 0x36000000#32, 0x28010009#32,
     0xFF000000#32].all (fun w => !wordWellFormed w) = true := by decide

/-- A capacity outside 1 to 8192 cannot be written (R5, U12). -/
theorem test_config_bounds (c : Config) : c.baCapBytes ≠ 0 ∧ c.baCapBytes ≠ 8193 :=
  ⟨by have := c.cap_pos; omega, by have := c.cap_le; omega⟩

/-! ### Decoding: a word of every row of R53, written out bit by bit from its encoding -/

theorem test_decode_sysStatus : decode 0b00000001000000000000000000000000#32 = .ok .sysStatus := by decide
theorem test_decode_gfNew : decode 0b00010000000000000000000000000000#32 = .ok .gfNew := by decide
theorem test_decode_gfAdd : decode 0b00010001000000000101011110000011#32 = .ok (.gfAdd 0x57#8 0x83#8) := by decide
theorem test_decode_gfSub : decode 0b00010010000000000101011110000011#32 = .ok (.gfSub 0x57#8 0x83#8) := by decide
theorem test_decode_gfMul : decode 0b00010011000000000101011110000011#32 = .ok (.gfMul 0x57#8 0x83#8) := by decide
theorem test_decode_gfDiv : decode 0b00010100000000000101011110000011#32 = .ok (.gfDiv 0x57#8 0x83#8) := by decide
theorem test_decode_gfInv : decode 0b00010101000000000000000011000101#32 = .ok (.gfInv 0xC5#8) := by decide
theorem test_decode_baNewBytes : decode 0b00100000000000001010010100001111#32 = .ok (.baNewBytes 0xA50F#16) := by decide
theorem test_decode_baNewCount : decode 0b00100001000000001010010100001111#32 = .ok (.baNewCount 0xA50F#16) := by decide
theorem test_decode_baNewStr : decode 0b00100010000000001010010100001111#32 = .ok (.baNewStr 0xA50F#16) := by decide
theorem test_decode_baPushByte : decode 0b00100011000000000000000011000101#32 = .ok (.baPushByte 0xC5#8) := by decide
theorem test_decode_baPushChar : decode 0b00100100000000000000000011000101#32 = .ok (.baPushChar 0xC5#8) := by decide
theorem test_decode_baGet : decode 0b00101000000000001010010100001111#32 = .ok (.baGet 0xA50F#16) := by decide
theorem test_decode_baSet : decode 0b00101001000000011010010100001111#32 = .ok (.baSet 0xA50F#16 true) := by decide
theorem test_decode_baXor : decode 0b00101010000000011010010100001111#32 = .ok (.baXor 0xA50F#16 true) := by decide
theorem test_decode_baSize : decode 0b00101011000000000000000000000000#32 = .ok .baSize := by decide
theorem test_decode_itBegin : decode 0b00110000000000000000000000000000#32 = .ok .itBegin := by decide
theorem test_decode_itNext : decode 0b00110001000000000000000000000000#32 = .ok .itNext := by decide
theorem test_decode_itGet : decode 0b00110010000000000000000000000000#32 = .ok .itGet := by decide
theorem test_decode_itSet : decode 0b00110011000000010000000000000000#32 = .ok (.itSet true) := by decide
theorem test_decode_itXor : decode 0b00110100000000010000000000000000#32 = .ok (.itXor true) := by decide
theorem test_decode_itAtEnd : decode 0b00110101000000000000000000000000#32 = .ok .itAtEnd := by decide

/-- The two cases of an illegal word are rejected by name (R54). -/
theorem test_decode_rejects_by_name :
    decode 0x36000000#32 = .error (.unassignedOpcode 0x36#8) ∧ decode 0x10000001#32 = .error (.reservedBit 0x10#8) := by
  decide

/-- The table's numbering of bits is cmd[31:0] (R50). -/
theorem test_decodeTableWord : decodeTableWord 32 0x130053CA = some (.gfMul 0x53#8 0xCA#8) := by decide

/-- Every row's word, encoded, is the word it was decoded from, on the worked encodings of R60. -/
theorem test_encode_worked :
    encode (.gfDiv 0xC1#8 0x83#8) = 0x1400C183#32 ∧ encode (.baXor 3#16 true) = 0x2A010003#32 ∧
    encode (.itSet true) = 0x33010000#32 := by decide

/-! ### The textual form (R58, R59) -/

theorem test_line_decimal_and_comment : readLine "BA_SET 2, 1 ; set".toList = some (.command (.baSet 2#16 true)) := by decide
/-- The model's choice (log entry 11): a boolean is any spelling of the number 0 or 1. -/
theorem test_line_boolean_spelling : readLine "IT_SET 0x1".toList = some (.command (.itSet true)) := by decide
theorem test_line_refuses_bad_boolean : readLine "IT_SET 2".toList = none := by decide
theorem test_line_bytes : (readLine "BA_BYTES 0xA5, 15".toList).map Line.commands =
    some [.baNewBytes 2#16, .baPushByte 0xA5#8, .baPushByte 0x0F#8] := by decide
theorem test_line_clr : (readLine "BA_CLR 2".toList).map Line.commands = some [.baSet 2#16 false] := by decide

/-! ### Byte storage -/

/-- Writing the value an unlisted address reads as removes the entry. -/
theorem test_memory_canonical :
    Memory.write (Memory.write [] 1 0x08#8) 0 0x01#8 = [(0, 0x01#8), (1, 0x08#8)] ∧
    Memory.write [(0, 0x01#8), (1, 0x08#8)] 0 0x00#8 = [(1, 0x08#8)] := by decide

/-- A form that is not canonical is told apart. -/
theorem test_memory_wf_refuses :
    Memory.wf [(1, 0x08#8), (0, 0x01#8)] = false ∧ Memory.wf [(0, 0x00#8)] = false := by decide

/-! ### Small states -/

/-- Unit GF constructed, with the table of section 3. -/
def gfOn : State := { State.reset with inv := invTable, gfReady := true }

/-- The smallest legal capacity. -/
def tiny : State := State.resetWith ⟨1, by decide, by decide⟩

/-- BA_NEW_BYTES 2, with `p` bytes received. -/
def loadingBytes (p : BitVec 16) : State :=
  { State.reset with allocBytes := 2#14, dataSize := 16#17, baState := .loadBytes, loadLen := 2#16, loadPtr := p }

/-- BA_NEW_STR 4, with `p` characters received. -/
def loadingStr (p : BitVec 16) : State :=
  { State.reset with allocBytes := 1#14, dataSize := 4#17, baState := .loadStr, loadLen := 4#16, loadPtr := p }

/-- A READY array of the variants 2 and 3: `bits` bits in `bytes` bytes. -/
def ready (bytes : BitVec 14) (bits : BitVec 17) (m : Memory) : State :=
  { State.reset with allocBytes := bytes, dataSize := bits, baState := .ready, store := m }

/-- The array "1011" (R94). -/
def four : State := ready 1#14 4#17 [(0, 0x0D#8)]

/-- An array of 9 bits with bit 8 set (section 6.6). -/
def nine : State := ready 2#14 9#17 [(1, 0x01#8)]

/-- The largest array: 8192 bytes, 65536 bits (R90). -/
def largest : State := ready 8192#14 65536#17 []

/-- The iterator at a position. -/
def itAt (k : BitVec 14) (o : BitVec 3) (s : State) : State := { s with itByte := k, itOff := o, itValid := true }

/-- A halted engine with the code 6. -/
def halted (s : State) : State := { s with err := true, errCode := 6#4 }

/-- One command word at the port. -/
def given (w : Word) (s : State) : State := { s with hostIn := [.cmd w] }

/-- The response of a step. -/
def reply : Result → Option Word
  | .next s => s.hostOut.getLast?
  | .fault _ => none
  | .refused _ => none

/-- A part of the next state. -/
def part {α : Type} (f : State → α) : Result → Option α
  | .next s => some (f s)
  | .fault _ => none
  | .refused _ => none

/-! ### One step of each command -/

theorem test_sysStatus : reply (exec .sysStatus { itAt 0#14 0#3 four with gfReady := true }) = some 0x0000000F#32 := by decide
theorem test_sysStatus_halted :
    reply (exec .sysStatus (halted { itAt 0#14 0#3 four with gfReady := true })) = some 0x860000DF#32 := by decide

theorem test_gfNew_ready : part State.gfReady (exec .gfNew State.reset) = some true := by decide +kernel
/-- The scan for 0x53 populates both entries of the pair (R73, section 3). -/
theorem test_gfNew_symmetric :
    invRead (scanInverse (Vector.replicate 256 0x00#8) 0x53#8) 0x53#8 = 0xCA#8 ∧
    invRead (scanInverse (Vector.replicate 256 0x00#8) 0x53#8) 0xCA#8 = 0x53#8 := by decide +kernel

theorem test_gfAdd : reply (exec (.gfAdd 0x57#8 0x83#8) gfOn) = some 0x000000D4#32 := by decide
theorem test_gfAdd_not_ready : reply (exec (.gfAdd 0x02#8 0x03#8) State.reset) = some 0x82000000#32 := by decide
theorem test_gfSub : reply (exec (.gfSub 0x00#8 0x83#8) gfOn) = some 0x00000083#32 := by decide
theorem test_gfMul : reply (exec (.gfMul 0x53#8 0xCA#8) gfOn) = some 0x00000001#32 := by decide
theorem test_gfMul_reduces : reply (exec (.gfMul 0xFF#8 0xFF#8) gfOn) = some 0x00000013#32 := by decide
theorem test_gfDiv : reply (exec (.gfDiv 0xC1#8 0x83#8) gfOn) = some 0x00000057#32 := by decide +kernel
theorem test_gfDiv_by_zero : reply (exec (.gfDiv 0x01#8 0x00#8) gfOn) = some 0x00000000#32 := by decide +kernel
theorem test_gfInv : reply (exec (.gfInv 0x53#8) gfOn) = some 0x000000CA#32 := by decide +kernel
theorem test_gfInv_zero : reply (exec (.gfInv 0x00#8) gfOn) = some 0x00000000#32 := by decide +kernel

theorem test_baNewBytes :
    part (fun t => (t.baState, t.dataSize, t.allocBytes)) (exec (.baNewBytes 2#16) State.reset) =
      some (.loadBytes, 16#17, 2#14) := by decide
theorem test_baNewBytes_capacity : reply (exec (.baNewBytes 8193#16) State.reset) = some 0x85000000#32 := by decide
theorem test_baNewCount :
    part (fun t => (t.baState, t.dataSize, t.allocBytes)) (exec (.baNewCount 65535#16) State.reset) =
      some (.ready, 65535#17, 8192#14) := by decide
theorem test_baNewCount_capacity :
    reply (exec (.baNewCount 7#16) tiny) = some 0x00000000#32 ∧
    reply (exec (.baNewCount 8#16) tiny) = some 0x85000000#32 := by decide
theorem test_baNewStr_invalidates :
    part (fun t => (t.baState, t.itValid, t.loadLen)) (exec (.baNewStr 4#16) (itAt 0#14 1#3 four)) =
      some (.loadStr, false, 4#16) := by decide
theorem test_baNewStr_empty :
    part (fun t => (t.baState, t.allocBytes)) (exec (.baNewStr 0#16) State.reset) = some (.ready, 1#14) := by decide
theorem test_baPushByte_last :
    part (fun t => (t.baState, t.store)) (exec (.baPushByte 0x0F#8) { loadingBytes 1#16 with store := [(0, 0xA5#8)] }) =
      some (.ready, [(0, 0xA5#8), (1, 0x0F#8)]) := by decide
theorem test_baPushByte_in_string : reply (exec (.baPushByte 0x01#8) (loadingStr 0#16)) = some 0x84000000#32 := by decide
theorem test_baPushChar_last :
    part (fun t => (t.baState, t.store)) (exec (.baPushChar 0x31#8) { loadingStr 3#16 with store := [(0, 0x05#8)] }) =
      some (.ready, [(0, 0x0D#8)]) := by decide
/-- 0xB1 is not the character '1' (section 6.4). -/
theorem test_baPushChar_other :
    part (fun t => (t.loadPtr, t.store)) (exec (.baPushChar 0xB1#8) (loadingStr 1#16)) = some (2#16, []) := by decide
theorem test_baGet : reply (exec (.baGet 2#16) four) = some 0x00000001#32 ∧
    reply (exec (.baGet 1#16) four) = some 0x00000000#32 := by decide
/-- The byte exists and the bit is beyond DATA_SIZE. -/
theorem test_baGet_range : reply (exec (.baGet 8#16) (ready 2#14 8#17 [])) = some 0x86000000#32 := by decide
theorem test_baSet : part State.store (exec (.baSet 2#16 false) four) = some [(0, 0x09#8)] := by decide
theorem test_baSet_clears : part State.store (exec (.baSet 3#16 false) (ready 1#14 8#17 [(0, 0xFF#8)])) =
    some [(0, 0xF7#8)] := by decide
theorem test_baXor : reply (exec (.baXor 3#16 true) four) = some 0x00000000#32 ∧
    reply (exec (.baXor 1#16 true) four) = some 0x00000001#32 := by decide
theorem test_baXor_keeps : part State.store (exec (.baXor 3#16 true) four) = some [(0, 0x0D#8)] := by decide
theorem test_baSize_largest : reply (exec .baSize largest) = some 0x00010000#32 := by decide
theorem test_baSize_not_ready : reply (exec .baSize (loadingStr 1#16)) = some 0x83000000#32 := by decide
theorem test_itBegin : part State.itPos (exec .itBegin (itAt 1#14 0#3 nine)) = some ⟨0, 0#3⟩ := by decide
theorem test_itBegin_no_array : reply (exec .itBegin State.reset) = some 0x83000000#32 := by decide
theorem test_itNext_rolls_over : part State.itPos (exec .itNext (itAt 0#14 7#3 nine)) = some ⟨1, 0#3⟩ := by decide
theorem test_itNext_end : reply (exec .itNext (itAt 0#14 4#3 four)) = some 0x88000000#32 := by decide
theorem test_itGet : reply (exec .itGet (itAt 1#14 0#3 nine)) = some 0x00000001#32 := by decide
theorem test_itGet_end : reply (exec .itGet (itAt 1#14 1#3 nine)) = some 0x86000000#32 := by decide
theorem test_itSet : part State.store (exec (.itSet true) (itAt 0#14 1#3 four)) = some [(0, 0x0F#8)] := by decide
theorem test_itSet_invalid : reply (exec (.itSet true) four) = some 0x87000000#32 := by decide
theorem test_itXor : reply (exec (.itXor true) (itAt 0#14 0#3 four)) = some 0x00000000#32 := by decide
theorem test_itAtEnd : reply (exec .itAtEnd (itAt 0#14 3#3 four)) = some 0x00000000#32 ∧
    reply (exec .itAtEnd (itAt 0#14 4#3 four)) = some 0x00000001#32 := by decide

/-! ### The step -/

/-- `withFetchWord` gives the word to the very next step. -/
theorem test_step_fetch_word : reply (step (State.reset.withFetchWord 32 0x2100000C)) = some 0x00000000#32 := by decide
/-- A malformed SYS_STATUS is dropped in the halted state, and the code stays (section 6.8, row 12). -/
theorem test_step_halted_drops : reply (step (given 0x01000001#32 (halted four))) = some 0x86000000#32 := by decide
/-- Reset clears the fault record (section 6.8). -/
theorem test_step_reset : part (fun t => (t.err, t.errCode, t.baState))
    (step { halted four with hostIn := [.rst] }) = some (false, 0#4, .none) := by decide

/-! ### Witnesses: the helper states meet the invariant -/

/-- A READY array without an iterator. -/
theorem inv_ready (b : BitVec 14) (n : BitVec 17) (m : Memory) (hb : b.toNat ≤ 8192)
    (hn : n.toNat = 8 * b.toNat ∨ b.toNat = n.toNat / 8 + 1) (hm : m.wf = true)
    (hr : ∀ k, b.toNat ≤ k → m.read k = unlistedByte) : Inv (ready b n m) where
  alloc_le_cap := hb
  size_le_alloc := by show n.toNat ≤ 8 * b.toNat; omega
  none_empty := fun h => nomatch h
  sizes := fun _ => hn
  load_bytes := fun h => nomatch h
  load_str := fun h => nomatch h
  iterator := fun h => nomatch h
  no_fault := fun _ => rfl
  fault_code := fun h => nomatch h
  table := fun h => nomatch h
  bits_backed := by intro i (hi : i < n.toNat); show i / 8 < b.toNat; omega
  store_wf := hm
  store_bounded := hr

/-- A valid iterator on it. -/
theorem inv_itAt {b : BitVec 14} {n : BitVec 17} {m : Memory} (h : Inv (ready b n m)) (k : BitVec 14) (o : BitVec 3)
    (hk : 8 * k.toNat + o.toNat ≤ n.toNat) : Inv (itAt k o (ready b n m)) :=
  ⟨h.alloc_le_cap, h.size_le_alloc, (fun e => nomatch e), h.sizes, (fun e => nomatch e), (fun e => nomatch e),
    fun _ => ⟨rfl, hk⟩, fun _ => rfl, (fun e => nomatch e), (fun e => nomatch e), h.bits_backed, h.store_wf, h.store_bounded⟩

theorem inv_four : Inv four :=
  inv_ready _ _ _ (by decide) (by decide) (by decide) fun k hk => if_neg (by simp at hk; omega)

theorem inv_nine : Inv nine :=
  inv_ready _ _ _ (by decide) (by decide) (by decide) fun k hk => if_neg (by simp at hk; omega)

theorem inv_largest : Inv largest := inv_ready _ _ _ (by decide) (by decide) (by decide) fun _ _ => rfl

/-- A byte construction in progress. -/
theorem inv_loadingBytes (p : BitVec 16) (hp : p.toNat < 2) : Inv (loadingBytes p) where
  alloc_le_cap := show 2 ≤ 8192 by decide
  size_le_alloc := show 16 ≤ 8 * 2 by decide
  none_empty := fun h => nomatch h
  sizes := fun _ => .inl rfl
  load_bytes := fun _ => ⟨hp, rfl, rfl, rfl⟩
  load_str := fun h => nomatch h
  iterator := fun h => nomatch h
  no_fault := fun _ => rfl
  fault_code := fun h => nomatch h
  table := fun h => nomatch h
  bits_backed := by intro i (hi : i < 16); show i / 8 < 2; omega
  store_wf := rfl
  store_bounded := fun _ _ => rfl

/-- A string construction in progress. -/
theorem inv_loadingStr (p : BitVec 16) (hp : p.toNat < 4) : Inv (loadingStr p) where
  alloc_le_cap := show 1 ≤ 8192 by decide
  size_le_alloc := show 4 ≤ 8 * 1 by decide
  none_empty := fun h => nomatch h
  sizes := fun _ => .inr (show 1 = 4 / 8 + 1 by decide)
  load_bytes := fun h => nomatch h
  load_str := fun _ => ⟨hp, rfl, rfl, show 1 = 4 / 8 + 1 by decide⟩
  iterator := fun h => nomatch h
  no_fault := fun _ => rfl
  fault_code := fun h => nomatch h
  table := fun h => nomatch h
  bits_backed := by intro i (hi : i < 4); show i / 8 < 1; omega
  store_wf := rfl
  store_bounded := fun _ _ => rfl

/-- An engine that meets the invariant with a command at its port. -/
theorem inv_given (w : Word) : Inv (given w four) :=
  ⟨inv_four.alloc_le_cap, inv_four.size_le_alloc, (fun h => nomatch h), inv_four.sizes, (fun h => nomatch h),
    (fun h => nomatch h), (fun h => nomatch h), fun _ => rfl, (fun h => nomatch h), (fun h => nomatch h), inv_four.bits_backed,
    inv_four.store_wf, inv_four.store_bounded⟩

/-! ### Witnesses: each statement's hypotheses are met, clause by clause -/

theorem witness_EncodeDecodeRoundTrip : decode 0x130053CA#32 = .ok (.gfMul 0x53#8 0xCA#8) := by decide

theorem witness_DecodeSelectsOneTableRow :
    decode 0x2901FFFF#32 = .ok (.baSet 65535#16 true) ∧ (∃ e, decode 0xFF000000#32 = .error e) ∧
    wordWellFormed 0xFF000000#32 = false := ⟨by decide, ⟨_, rfl⟩, by decide⟩

theorem witness_StepRunsDecodedCommand :
    (given 0x28000002#32 four).hostIn = .cmd 0x28000002#32 :: [] ∧ decode 0x28000002#32 = .ok (.baGet 2#16) := by decide

theorem witness_IllegalWordRaisesIllegal :
    (given 0x00000000#32 four).hostIn = .cmd 0x00000000#32 :: [] ∧ (∃ e, decode 0x00000000#32 = .error e) ∧
    (given 0x00000000#32 four).err = false := ⟨rfl, ⟨_, rfl⟩, rfl⟩

/-- For both statements about the reset event. -/
theorem witness_ResetEventClearsEngine : { halted four with hostIn := [.rst] }.hostIn = .rst :: [] := rfl

theorem witness_IdlePortChangesNothing : four.hostIn = [] := rfl

theorem witness_StepIsTotal : Inv (given 0x28000002#32 four) ∧ Inv (loadingStr 3#16) ∧ Inv (itAt 1#14 1#3 nine) :=
  ⟨inv_given _, inv_loadingStr _ (by decide), inv_itAt inv_nine _ _ (by decide)⟩

theorem witness_OneResponsePerCommand :
    (∃ t, step (given 0x28000002#32 four) = .next t ∧ t.err = false) ∧
    (∃ t, step (given 0x28000004#32 four) = .next t ∧ t.err = true ∧ decode 0x28000004#32 ≠ .ok .sysStatus) :=
  ⟨⟨_, rfl, rfl⟩, ⟨_, rfl, rfl, by decide⟩⟩

theorem witness_ParametersNeverChange : ∃ t, step { tiny with hostIn := [.rst] } = .next t := ⟨_, rfl⟩

theorem witness_InvariantKeptByStep :
    ∃ s t, Inv s ∧ step s = .next t ∧ t.baState = .loadStr := ⟨given 0x22000004#32 four, _, inv_given _, rfl, rfl⟩

/-- Bits 4 to 7 of the byte 0x0D are 0. -/
theorem padZero_four : ∀ i, 4 ≤ i → State.bitAt four i = false := by
  intro i hi
  by_cases h : i < 8
  · interval_cases i <;> decide
  · have : ¬ i / 8 = 0 := by omega
    simp [State.bitAt, State.byteAt, four, ready, Memory.read, this, unlistedByte]

theorem witness_BitsBeyondSizeStayZero :
    ∃ s t, Inv s ∧ PadZero s ∧ step s = .next t ∧ t.store = [(0, 0x09#8)] :=
  ⟨given 0x29000002#32 four, _, inv_given _, padZero_four, rfl, rfl⟩

theorem witness_FaultsArePrecise :
    (∃ t, step (given 0x28000004#32 four) = .next t ∧ (given 0x28000004#32 four).err = false ∧ t.err = true) ∧
    (∃ t, step (given 0x00000000#32 four) = .next t ∧ (given 0x00000000#32 four).err = false ∧ t.err = true) :=
  ⟨⟨_, rfl, rfl, rfl⟩, ⟨_, rfl, rfl, rfl⟩⟩

theorem witness_ResHoldsResponseValue :
    four.err = false ∧ Instr.baSize ≠ .sysStatus ∧ ∃ t, exec .baSize four = .next t ∧ t.err = false :=
  ⟨rfl, by decide, _, rfl, rfl⟩

/-- A command, an illegal word, a malformed SYS_STATUS; and SYS_STATUS. -/
theorem witness_HaltedEngineDropsCommands :
    (given 0x2B000000#32 (halted four)).err = true ∧ decode 0x2B000000#32 ≠ .ok .sysStatus ∧
    decode 0x00000000#32 ≠ .ok .sysStatus ∧ decode 0x01000001#32 ≠ .ok .sysStatus ∧
    decode 0x01000000#32 = .ok .sysStatus := by decide

theorem witness_HaltedStateIsFrozen :
    ∃ s t, s.err = true ∧ (∀ rest, s.hostIn ≠ .rst :: rest) ∧ step s = .next t :=
  ⟨given 0x2B000000#32 (halted four), _, rfl, fun _ => by simp [given], rfl⟩

theorem witness_gf_ready : gfOn.err = false ∧ gfOn.gfReady = true := ⟨rfl, rfl⟩

theorem witness_GfNotReadyRaised : four.err = false ∧ four.gfReady = false := ⟨rfl, rfl⟩

theorem witness_GfNewBuildsListedTable : State.reset.err = false ∧ gfOn.err = false := ⟨rfl, rfl⟩

theorem witness_nonzero_element : (0x01#8 : Byte) ≠ 0x00#8 ∧ (0xFF#8 : Byte) ≠ 0x00#8 := by decide

theorem witness_GfIndependentOfBa :
    Instr.isGf (.gfMul 0x53#8 0xCA#8) = true ∧ ∃ t, exec (.gfMul 0x53#8 0xCA#8) gfOn = .next t := ⟨rfl, _, rfl⟩

/-- At no byte and at the whole capacity, with an array already there. -/
theorem witness_BaNewBytesConstructs :
    four.err = false ∧ (0#16).toNat ≤ four.cfg.baCapBytes ∧ (8192#16).toNat ≤ four.cfg.baCapBytes := by decide

/-- At no bit and at the largest count; with the smallest capacity, the largest count it holds. -/
theorem witness_BaNewCountConstructs :
    four.err = false ∧ (0#16).toNat / 8 + 1 ≤ four.cfg.baCapBytes ∧ (65535#16).toNat / 8 + 1 ≤ four.cfg.baCapBytes ∧
    tiny.err = false ∧ (7#16).toNat / 8 + 1 ≤ tiny.cfg.baCapBytes := by decide

/-- BA_NEW_STR has the hypotheses of BA_NEW_COUNT. -/
theorem witness_BaNewStrConstructs :
    (loadingStr 1#16).err = false ∧ (0#16).toNat / 8 + 1 ≤ (loadingStr 1#16).cfg.baCapBytes ∧
    (65535#16).toNat / 8 + 1 ≤ (loadingStr 1#16).cfg.baCapBytes := by decide

theorem witness_CapacityFaultRaised :
    four.err = false ∧ four.cfg.baCapBytes < (8193#16).toNat ∧
    tiny.err = false ∧ tiny.cfg.baCapBytes < (8#16).toNat / 8 + 1 := by decide

/-- The first push and the last. -/
theorem witness_BaPushByteStoresByte :
    Inv (loadingBytes 0#16) ∧ Inv (loadingBytes 1#16) ∧ (loadingBytes 1#16).err = false ∧
    (loadingBytes 1#16).baState = .loadBytes :=
  ⟨inv_loadingBytes _ (by decide), inv_loadingBytes _ (by decide), rfl, rfl⟩

/-- The first push and the last. -/
theorem witness_BaPushCharWritesBit :
    Inv (loadingStr 0#16) ∧ Inv (loadingStr 3#16) ∧ (loadingStr 3#16).err = false ∧
    (loadingStr 3#16).baState = .loadStr :=
  ⟨inv_loadingStr _ (by decide), inv_loadingStr _ (by decide), rfl, rfl⟩

theorem witness_SequenceFaultRaised :
    (loadingStr 0#16).err = false ∧ (loadingStr 0#16).baState ≠ .loadBytes ∧
    (loadingBytes 0#16).err = false ∧ (loadingBytes 0#16).baState ≠ .loadStr := by decide

/-- The last bit of a part-filled byte and bit 65535 of the largest array: for BA_GET, BA_XOR and BA_SET. -/
theorem witness_indexed_access :
    (Inv four ∧ four.err = false ∧ four.baState = .ready ∧ (3#16).toNat < four.dataSize.toNat) ∧
    (Inv largest ∧ largest.err = false ∧ largest.baState = .ready ∧ (65535#16).toNat < largest.dataSize.toNat) :=
  ⟨⟨inv_four, by decide⟩, inv_largest, by decide⟩

theorem witness_BaSizeReturnsDataSize : largest.err = false ∧ largest.baState = .ready := by decide

theorem witness_BaNotReadyRaised :
    Instr.needsArray (.itSet true) = true ∧ State.reset.err = false ∧ State.reset.baState ≠ .ready ∧
    (loadingStr 1#16).err = false ∧ (loadingStr 1#16).baState ≠ .ready := by decide

theorem witness_RangeFaultRaised :
    (four.err = false ∧ four.baState = .ready ∧ four.dataSize.toNat ≤ (4#16).toNat) ∧
    ((itAt 1#14 1#3 nine).err = false ∧ (itAt 1#14 1#3 nine).baState = .ready ∧ (itAt 1#14 1#3 nine).itValid = true ∧
      (itAt 1#14 1#3 nine).dataSize.toNat ≤ (itAt 1#14 1#3 nine).itIndex) := by decide

theorem witness_BaIndependentOfGf :
    Instr.isGf (.baGet 2#16) = false ∧ Instr.baGet 2#16 ≠ .sysStatus ∧ ∃ t, exec (.baGet 2#16) four = .next t :=
  ⟨rfl, by decide, _, rfl⟩

theorem witness_ArrayIsNeverResized :
    Instr.isConstruction (.baPushByte 0xA5#8) = false ∧ ∃ t, exec (.baPushByte 0xA5#8) (loadingBytes 1#16) = .next t :=
  ⟨rfl, _, rfl⟩

theorem witness_ReadingCommandsKeepStore :
    Instr.writesStore (.itXor true) = false ∧ ∃ t, exec (.itXor true) (itAt 0#14 0#3 four) = .next t := ⟨rfl, _, rfl⟩

theorem witness_ItBeginStartsAtZero : (itAt 1#14 0#3 nine).err = false ∧ (itAt 1#14 0#3 nine).baState = .ready := by decide

/-- Inside a byte, at the roll-over, and on the last step to End(). -/
theorem witness_ItNextAdvancesOneBit :
    ∀ p ∈ [(0#14, 0#3), (0#14, 7#3), (1#14, 0#3)], Inv (itAt p.1 p.2 nine) ∧ (itAt p.1 p.2 nine).err = false ∧
      (itAt p.1 p.2 nine).baState = .ready ∧ (itAt p.1 p.2 nine).itValid = true ∧
      (itAt p.1 p.2 nine).itIndex ≠ (itAt p.1 p.2 nine).dataSize.toNat := by
  simp only [List.mem_cons, List.not_mem_nil, or_false]
  rintro p (rfl | rfl | rfl) <;> exact ⟨inv_itAt inv_nine _ _ (by decide), by decide⟩

/-- At the last valid bit: for IT_GET, IT_XOR and IT_SET. -/
theorem witness_iterator_access :
    Inv (itAt 1#14 0#3 nine) ∧ (itAt 1#14 0#3 nine).err = false ∧ (itAt 1#14 0#3 nine).baState = .ready ∧
    (itAt 1#14 0#3 nine).itValid = true ∧ (itAt 1#14 0#3 nine).itIndex < (itAt 1#14 0#3 nine).dataSize.toNat :=
  ⟨inv_itAt inv_nine _ _ (by decide), by decide⟩

/-- At End() and one bit before it. -/
theorem witness_ItAtEndComparesWithEnd :
    ((itAt 1#14 1#3 nine).err = false ∧ (itAt 1#14 1#3 nine).baState = .ready ∧ (itAt 1#14 1#3 nine).itValid = true ∧
      (itAt 1#14 1#3 nine).itIndex = (itAt 1#14 1#3 nine).dataSize.toNat) ∧
    ((itAt 1#14 0#3 nine).err = false ∧ (itAt 1#14 0#3 nine).baState = .ready ∧ (itAt 1#14 0#3 nine).itValid = true) := by
  decide

theorem witness_ItInvalidRaised :
    Instr.needsIterator .itAtEnd = true ∧ four.err = false ∧ four.baState = .ready ∧ four.itValid = false := by decide

theorem witness_ItEndFaultRaised :
    (itAt 1#14 1#3 nine).err = false ∧ (itAt 1#14 1#3 nine).baState = .ready ∧ (itAt 1#14 1#3 nine).itValid = true ∧
    (itAt 1#14 1#3 nine).itByte.toNat = (itAt 1#14 1#3 nine).dataSize.toNat / 8 ∧
    (itAt 1#14 1#3 nine).itOff.toNat = (itAt 1#14 1#3 nine).dataSize.toNat % 8 := by decide

theorem witness_IteratorMovesForwardOnly :
    Inv (itAt 0#14 7#3 nine) ∧ ∃ t, exec .itNext (itAt 0#14 7#3 nine) = .next t :=
  ⟨inv_itAt inv_nine _ _ (by decide), _, rfl⟩

/-- The empty string and the longest one, on an engine that holds an array already. -/
theorem witness_StringConstructionRoundTrip :
    Inv four ∧ four.err = false ∧ four.hostIn = [] ∧
    ∀ cs ∈ [[], List.replicate 65535 0x31#8], (Pseudo.baStr cs).wf = true ∧ cs.length / 8 + 1 ≤ four.cfg.baCapBytes := by
  refine ⟨inv_four, rfl, rfl, ?_⟩
  simp only [List.mem_cons, List.not_mem_nil, or_false]
  rintro cs (rfl | rfl)
  · decide
  · exact ⟨test_wf_accepts_longest.1, by rw [List.length_replicate]; decide⟩

/-- The empty buffer and the longest one. -/
theorem witness_BufferConstructionCopiesBytes :
    Inv four ∧ four.err = false ∧ four.hostIn = [] ∧
    ∀ ds ∈ [[], List.replicate 8192 0x00#8], (Pseudo.baBytes ds).wf = true ∧ ds.length ≤ four.cfg.baCapBytes := by
  refine ⟨inv_four, rfl, rfl, ?_⟩
  simp only [List.mem_cons, List.not_mem_nil, or_false]
  rintro ds (rfl | rfl)
  · decide
  · exact ⟨test_wf_accepts_longest.2, by rw [List.length_replicate]; decide⟩

/-- An array of 9 bits and one of none. -/
theorem witness_IterationIsComplete :
    (Inv nine ∧ nine.err = false ∧ nine.baState = .ready) ∧
    (Inv (ready 1#14 0#17 []) ∧ (ready 1#14 0#17 []).err = false ∧ (ready 1#14 0#17 []).baState = .ready) :=
  ⟨⟨inv_nine, rfl, rfl⟩, inv_ready _ _ _ (by decide) (by decide) rfl fun _ _ => rfl, rfl, rfl⟩

end Sys2Proof.Tests
end

section
/-! The STATUS view (spec/10_state.md R22): one lemma per field of the word, for every state, and the command that
answers it (spec/43_system.md R125). -/

namespace Sys2Proof.Machine

variable (s : State)

/-! ### The fields of STATUS, lowest first -/

theorem status_gfReady : s.status.getLsbD 0 = s.gfReady := by
  simp only [State.status, BitVec.getLsbD_append]
  simp

theorem status_baState : s.status.extractLsb' 1 2 = s.baState.code := by
  rw [State.status, BitVec.extractLsb'_append_eq_of_le (by decide)]
  exact BitVec.extractLsb'_append_eq_right

theorem status_itValid : s.status.getLsbD 3 = s.itValid := by
  simp only [State.status, BitVec.getLsbD_append]
  simp

theorem status_err : s.status.getLsbD 4 = s.err := by
  simp only [State.status, BitVec.getLsbD_append]
  simp

theorem status_errCode : s.status.extractLsb' 5 4 = s.errCode := by
  rw [State.status]
  iterate 4 rw [BitVec.extractLsb'_append_eq_of_le (by decide)]
  exact BitVec.extractLsb'_append_eq_right

theorem status_upper : s.status.extractLsb' 9 8 = 0#8 := by
  rw [State.status]
  iterate 4 rw [BitVec.extractLsb'_append_eq_of_le (by decide)]
  exact BitVec.extractLsb'_append_eq_left

/-! ### The command -/

/-- R125: SYS_STATUS checks nothing before it answers; in particular it is not dropped in the halted state. -/
theorem exec_sysStatus : exec .sysStatus s = .next (s.respond s.status) := rfl

end Sys2Proof.Machine

namespace Sys2Proof

open Machine

/-- Settles O24: the value is `State.status`, whose fields the lemmas above read one by one. -/
theorem sysStatusAnswersStatus : Obligations.SysStatusAnswersStatus := by
  intro s
  refine ⟨s.status, exec_sysStatus s, status_gfReady s, ?_, status_itValid s, status_err s, status_errCode s,
    status_upper s⟩
  rw [status_baState]
  cases s.baState <;> rfl

end Sys2Proof
end

section
/-! The range check (spec/20_memory.md R35): what `indexed` and `atIterator`, the checks the access commands share, do
in each case of an index below, at or beyond DATA_SIZE. -/

namespace Sys2Proof.Machine

variable {s : State} (k : Result)

/-! ### Indexed access (R95 to R97) -/

/-- On a READY array only the range check is left. -/
theorem indexed_ready {n : BitVec 16} (he : s.err = false) (hr : s.baState = .ready) :
    indexed n s k = require (n.toNat < s.dataSize.toNat) .baRange s k := by
  rw [indexed, unlessHalted_running _ he, require_holds hr]

theorem indexed_out_of_range {n : BitVec 16} (he : s.err = false) (hr : s.baState = .ready)
    (hn : s.dataSize.toNat ≤ n.toNat) : indexed n s k = .next (takeFault .baRange s) := by
  rw [indexed_ready k he hr, require_fails (Nat.not_lt.2 hn)]

/-! ### Access at the iterator (R112 to R114) -/

/-- On a READY array with a valid iterator an iterator command goes on. -/
theorem withIterator_valid (he : s.err = false) (hr : s.baState = .ready) (hv : s.itValid = true) :
    withIterator s k = k := by
  rw [withIterator, unlessHalted_running _ he, require_holds hr, require_holds hv]

theorem atIterator_out_of_range (he : s.err = false) (hr : s.baState = .ready) (hv : s.itValid = true)
    (hn : s.dataSize.toNat ≤ s.itIndex) : atIterator s k = .next (takeFault .baRange s) := by
  rw [atIterator, withIterator_valid _ he hr hv, require_fails (Nat.not_lt.2 hn)]

/-! ### The fault a command raises (R131) -/

/-- `Raises` is taking the fault, with the writes of `takeFault` written out. -/
theorem raises_iff {i : Instr} {c : ErrCode} : Raises i s c ↔ exec i s = .next (takeFault c s) := Iff.rfl

end Sys2Proof.Machine

namespace Sys2Proof

open Machine

/-- Settles O46: the range check fails before the access itself, so what the command would do with the bit is not
reached. -/
theorem rangeFaultRaised : Obligations.RangeFaultRaised := by
  intro n v s he hr
  simp only [raises_iff]
  constructor
  · intro hn
    exact ⟨indexed_out_of_range _ he hr hn, indexed_out_of_range _ he hr hn, indexed_out_of_range _ he hr hn⟩
  · intro hv hn
    exact ⟨atIterator_out_of_range _ he hr hv hn, atIterator_out_of_range _ he hr hv hn,
      atIterator_out_of_range _ he hr hv hn⟩

end Sys2Proof
end

section
/-! The decoder and the opcode table (spec/30_encoding.md R53, R54): a row is an opcode and a format, it selects the words
with that opcode and no reserved bit of the format set, and the opcodes of the table are all different. -/

namespace Sys2Proof

/-! ### A row of the table (R53) -/

/-- The row of an opcode and a format: its mask covers the opcode and the format's reserved bits, its pattern is the opcode
above zeros. `decode_by_row` ties it to the table and the decoder. -/
def formatRow (m : String) (op : BitVec 8) (f : Format) : OpRow := ⟨m, op ++ 0#24, 0xFF000000#32 ||| f.reserved⟩

theorem opcode_masked (w : Word) : w &&& 0xFF000000#32 = cmdOpcode w ++ 0#24 := by
  apply BitVec.eq_of_getLsbD_eq
  intro i hi
  simp only [cmdOpcode, BitVec.getLsbD_and, BitVec.getLsbD_append, BitVec.getLsbD_extractLsb']
  interval_cases i <;> simp

/-- No format reserves a bit of the opcode (R51). -/
theorem opcode_and_reserved (f : Format) : 0xFF000000#32 &&& f.reserved = 0#32 := by
  cases f <;> decide

/-- A word selects the row of its own opcode exactly when it has no reserved bit set. -/
theorem formatRow_selects_iff {m : String} {f : Format} {w : Word} :
    (formatRow m (cmdOpcode w) f).selects w = true ↔ w &&& f.reserved = 0#32 := by
  rw [OpRow.selects, beq_iff_eq, formatRow, ← opcode_masked, BitVec.and_or_distrib_left]
  constructor
  · intro h
    calc w &&& f.reserved
        = (w &&& 0xFF000000#32 ||| w &&& f.reserved) &&& f.reserved := by
          rw [BitVec.and_or_distrib_right, BitVec.and_assoc, opcode_and_reserved, BitVec.and_assoc]; simp
      _ = 0#32 := by rw [h, BitVec.and_assoc, opcode_and_reserved]; simp
  · intro h
    simp [h]

/-! ### The rows are disjoint (R53) -/

/-- The opcode column of R53. -/
theorem table_opcodes :
    (opcodeTable.map fun r => cmdOpcode r.pattern) =
      [0x01#8, 0x10#8, 0x11#8, 0x12#8, 0x13#8, 0x14#8, 0x15#8, 0x20#8, 0x21#8, 0x22#8, 0x23#8, 0x24#8, 0x28#8, 0x29#8,
       0x2A#8, 0x2B#8, 0x30#8, 0x31#8, 0x32#8, 0x33#8, 0x34#8, 0x35#8] := by decide

/-- Every mask of the table covers the whole opcode, so a word selects rows of its own opcode only. -/
theorem opcode_of_selects {r : OpRow} {w : Word} (hr : r ∈ opcodeTable) (h : r.selects w = true) :
    cmdOpcode r.pattern = cmdOpcode w := by
  have hmask : ∀ r ∈ opcodeTable, cmdOpcode r.mask = 0xFF#8 := by decide
  rw [← beq_iff_eq.1 h, cmdOpcode, BitVec.extractLsb'_and, ← cmdOpcode, ← cmdOpcode, hmask r hr]
  exact BitVec.and_allOnes

theorem row_eq_of_opcode {r r' : OpRow} (hr : r ∈ opcodeTable) (hr' : r' ∈ opcodeTable)
    (h : cmdOpcode r.pattern = cmdOpcode r'.pattern) : r = r' := by
  have hnodup : (opcodeTable.map fun r => cmdOpcode r.pattern).Nodup := by rw [table_opcodes]; decide
  exact List.inj_on_of_nodup_map hnodup hr hr' h

theorem selected_row_unique {r r' : OpRow} {w : Word} (hr : r ∈ opcodeTable) (h : r.selects w = true)
    (hr' : r' ∈ opcodeTable) (h' : r'.selects w = true) : r' = r :=
  row_eq_of_opcode hr' hr ((opcode_of_selects hr' h').trans (opcode_of_selects hr h).symm)

/-! ### The decoder reads the table (R53, R54) -/

/-- The decoder's branches: an opcode of the table is decoded by the format of its row, any other is rejected. -/
theorem decode_by_row (w : Word) :
    (∃ f i, decode w = ofFormat f w i ∧ formatRow i.mnemonic (cmdOpcode w) f ∈ opcodeTable) ∨
    (decode w = .error (.unassignedOpcode (cmdOpcode w)) ∧ ∀ r ∈ opcodeTable, cmdOpcode r.pattern ≠ cmdOpcode w) := by
  unfold decode
  generalize cmdOpcode w = op
  split
  case h_23 => -- the default branch
    refine .inr ⟨rfl, ?_⟩
    rw [← List.forall_mem_map (P := (· ≠ op)), table_opcodes]
    simp_all [ne_comm]
  all_goals exact .inl ⟨_, _, rfl, by simp only [Instr.mnemonic]; decide⟩

/-- A word that decodes selects the row of its command. -/
theorem exists_row_of_decode {w : Word} {i : Instr} (h : decode w = .ok i) :
    ∃ r ∈ opcodeTable, r.selects w = true ∧ r.mnemonic = i.mnemonic := by
  rcases decode_by_row w with ⟨f, j, hd, hr⟩ | ⟨hd, -⟩
  · obtain ⟨hres, rfl⟩ := ofFormat_ok (hd ▸ h)
    exact ⟨_, hr, formatRow_selects_iff.2 hres, rfl⟩
  · cases hd.symm.trans h

/-- A word that selects a row decodes: the row it selects is the one its opcode is decoded by. -/
theorem exists_decode_of_selects {r : OpRow} {w : Word} (hr : r ∈ opcodeTable) (h : r.selects w = true) :
    ∃ i, decode w = .ok i := by
  rcases decode_by_row w with ⟨f, i, hd, hr'⟩ | ⟨-, hne⟩
  · have hop : cmdOpcode (formatRow i.mnemonic (cmdOpcode w) f).pattern = cmdOpcode w := encodeN_opcode _
    have heq := row_eq_of_opcode hr hr' ((opcode_of_selects hr h).trans hop.symm)
    exact ⟨i, hd.trans (ofFormat_of_reserved i (formatRow_selects_iff.1 (heq ▸ h)))⟩
  · exact absurd (opcode_of_selects hr h) (hne r hr)

theorem wordWellFormed_iff {w : Word} : wordWellFormed w = true ↔ ∃ i, decode w = .ok i := by
  rw [wordWellFormed, List.any_eq_true]
  constructor
  · rintro ⟨r, hr, h⟩
    exact exists_decode_of_selects hr h
  · rintro ⟨i, h⟩
    obtain ⟨r, hr, hs, -⟩ := exists_row_of_decode h
    exact ⟨r, hr, hs⟩

theorem decode_error_iff {w : Word} : (∃ e, decode w = .error e) ↔ wordWellFormed w = false := by
  rw [← Bool.not_eq_true, wordWellFormed_iff]
  cases decode w <;> simp

/-- Settles O3: the decoder's format rows are rows of the table, and no two rows share an opcode. -/
theorem decodeSelectsOneTableRow : Obligations.DecodeSelectsOneTableRow := by
  refine ⟨fun w i h => ?_, fun w => decode_error_iff⟩
  obtain ⟨r, hr, hs, hm⟩ := exists_row_of_decode h
  exact ⟨r, hr, hs, hm, fun r' hr' hs' => selected_row_unique hr hs hr' hs'⟩

/-- Settles O4: the decoder evaluated on each listed word. -/
theorem workedEncodingsDecode : Obligations.WorkedEncodingsDecode := by
  refine ⟨by decide, by decide, by decide, by decide, by decide, by decide, ?_⟩
  simp only [List.forall_mem_cons]
  exact ⟨⟨_, rfl⟩, ⟨_, rfl⟩, ⟨_, rfl⟩, ⟨_, rfl⟩, ⟨_, rfl⟩, ⟨_, rfl⟩, by simp⟩

end Sys2Proof
end

section
/-! The functions of unit GF (spec/40_gf256.md R70 to R72): the product as a sum of shifted operands, and its reduction
modulo x^8 + x^4 + x^3 + x + 1. -/

namespace Sys2Proof.Machine

/-! ### The carry-less product (R71) -/

/-- Add the term `f k` to the running sum `p` if bit `k` of `y` is set. -/
def addTerm {w : Nat} (f : Nat → BitVec w) (y : Byte) (p : BitVec w) (k : Nat) : BitVec w :=
  if y.getLsbD k then p ^^^ f k else p

/-- The sum of the terms `f k` for the bits `k` set in `y`: the shape of `clMul` (`clMul_eq_bitSum`) and of `gfMul`
(`gfMul_eq_bitSum`). -/
def bitSum {w : Nat} (f : Nat → BitVec w) (y : Byte) : BitVec w := (List.range 8).foldl (addTerm f y) 0#w

theorem clMul_eq_bitSum (x : BitVec 16) (y : Byte) : clMul x y = bitSum (x <<< ·) y := rfl

/-- Where both bits are set the two terms cancel. -/
theorem addTerm_xor {w : Nat} (f : Nat → BitVec w) (y z : Byte) (p q : BitVec w) (k : Nat) :
    addTerm f (y ^^^ z) (p ^^^ q) k = addTerm f y p k ^^^ addTerm f z q k := by
  simp only [addTerm, BitVec.getLsbD_xor]
  cases y.getLsbD k <;> cases z.getLsbD k
  · rfl
  · exact BitVec.xor_assoc p q (f k)
  · show p ^^^ q ^^^ f k = p ^^^ f k ^^^ q
    ac_rfl
  · calc p ^^^ q
        = p ^^^ q ^^^ (f k ^^^ f k) := by simp
      _ = p ^^^ f k ^^^ (q ^^^ f k) := by ac_rfl

theorem foldl_addTerm_xor {w : Nat} (f : Nat → BitVec w) (y z : Byte) (l : List Nat) (p q : BitVec w) :
    l.foldl (addTerm f (y ^^^ z)) (p ^^^ q) = l.foldl (addTerm f y) p ^^^ l.foldl (addTerm f z) q := by
  induction l generalizing p q with
  | nil => rfl
  | cons k l ih => simp only [List.foldl_cons, addTerm_xor, ih]

theorem bitSum_xor {w : Nat} (f : Nat → BitVec w) (y z : Byte) : bitSum f (y ^^^ z) = bitSum f y ^^^ bitSum f z := by
  simpa [bitSum] using foldl_addTerm_xor f y z (List.range 8) 0#w 0#w

theorem clMul_xor (x : BitVec 16) (y z : Byte) : clMul x (y ^^^ z) = clMul x y ^^^ clMul x z := bitSum_xor _ y z

/-- The polynomial x^k has the one term `f k`. -/
theorem bitSum_twoPow {w : Nat} (f : Nat → BitVec w) {k : Nat} (hk : k < 8) : bitSum f (BitVec.twoPow 8 k) = f k := by
  interval_cases k <;> simp [bitSum, addTerm, List.range_succ]

/-! ### Reduction (R71) -/

/-- `x` reduces to `p`: they differ by a multiple of the reduction polynomial. -/
def ReducesTo (x : BitVec 16) (p : Byte) : Prop := ∃ q : Byte, x = clMul reductionPolynomial q ^^^ p.setWidth 16

/-- A byte is its own remainder. -/
theorem ReducesTo.refl (p : Byte) : ReducesTo (p.setWidth 16) p := ⟨0#8, by simp [clMul]⟩

theorem ReducesTo.xor {x y : BitVec 16} {p r : Byte} (hx : ReducesTo x p) (hy : ReducesTo y r) :
    ReducesTo (x ^^^ y) (p ^^^ r) := by
  obtain ⟨q, rfl⟩ := hx
  obtain ⟨q', rfl⟩ := hy
  refine ⟨q ^^^ q', ?_⟩
  rw [clMul_xor, BitVec.setWidth_xor]
  ac_rfl

theorem reducesTo_reductionPolynomial_shift {k : Nat} (hk : k < 8) : ReducesTo (reductionPolynomial <<< k) 0x00#8 :=
  ⟨BitVec.twoPow 8 k, by simp [clMul_eq_bitSum, bitSum_twoPow _ hk]⟩

/-- One `xtime` is one shift, less the reduction polynomial when a bit goes out of the top. -/
theorem shiftLeft_one_eq_xtime (a : Byte) :
    a.setWidth 16 <<< 1 = (xtime a).setWidth 16 ^^^ (if a.getLsbD 7 then reductionPolynomial else 0#16) := by
  apply BitVec.eq_of_getLsbD_eq
  intro i hi
  unfold xtime
  cases h : a[7] <;> interval_cases i <;> simp [h, reductionConstant, reductionPolynomial]

/-- `k` times `xtime` is the reduced shift by `k`. -/
theorem reducesTo_iterate_xtime {k : Nat} (hk : k < 8) (a : Byte) : ReducesTo (a.setWidth 16 <<< k) (xtime^[k] a) := by
  induction k generalizing a with
  | zero => simpa using ReducesTo.refl a
  | succ k ih =>
    have hrest := ih (by omega) (xtime a)
    rw [Nat.add_comm, BitVec.shiftLeft_add, shiftLeft_one_eq_xtime, BitVec.shiftLeft_xor_distrib, Nat.add_comm,
      Function.iterate_succ_apply]
    split
    · simpa using hrest.xor (reducesTo_reductionPolynomial_shift (by omega : k < 8))
    · simpa using hrest

/-! ### The product of two bytes (R71) -/

/-- The eight iterations add `xtime^[k] a` for every bit `k` set in `b`. -/
theorem gfMul_eq_bitSum (a b : Byte) : gfMul a b = bitSum (fun k => xtime^[k] a) b := by
  simp [gfMul, gfMulLoop, bitSum, addTerm, List.range_succ]

/-- Term by term, the shift by `k` of the carry-less product against the `k` times `xtime` of `gfMul`. -/
theorem clMul_reducesTo_gfMul (a b : Byte) : ReducesTo (clMul (a.setWidth 16) b) (gfMul a b) := by
  rw [gfMul_eq_bitSum]
  refine List.foldl_rel (ReducesTo.refl 0x00#8) fun k hk x p h => ?_
  unfold addTerm
  split
  · exact h.xor (reducesTo_iterate_xtime (List.mem_range.1 hk) a)
  · exact h

/-- The identity 1, by evaluation at the 256 bytes. -/
theorem gfMul_one_left : ∀ b : Byte, gfMul 0x01#8 b = b := by decide +kernel

/-! ### The quotient (R72) -/

/-- The shortcut for dividend 1 is the product it stands for. -/
theorem gfDiv_eq (t : Vector Byte 256) (a b : Byte) :
    gfDiv t a b = if a = 0x00#8 ∨ b = 0x00#8 then 0x00#8 else gfMul a (invRead t b) := by
  unfold gfDiv
  split
  · rfl
  · split
    · next h => rw [h, gfMul_one_left]
    · rfl

end Sys2Proof.Machine
end

section
/-! The value commands of unit GF (spec/40_gf256.md R75 to R78), and the independence of the unit from unit BA (R85). -/

namespace Sys2Proof.Machine

variable {i : Instr} {s t : State}

/-! ### How a value command completes -/

/-- On a running engine `finish` writes what `Completes` says of a command with no other write. -/
theorem completes_of_finish {v : Value} (he : s.err = false) (h : exec i s = .next (finish v s)) :
    Completes i s s v := by
  rw [Completes, h, finish, State.respond, he]

theorem gfValue_ready (b : Byte) (he : s.err = false) (hr : s.gfReady = true) :
    gfValue s b = .next (finish (byteValue b) s) := by
  rw [gfValue, unlessHalted_running _ he, require_holds hr]

/-- A value command completes with its byte. -/
theorem completes_of_gfValue {b : Byte} (he : s.err = false) (hr : s.gfReady = true) (h : exec i s = gfValue s b) :
    Completes i s s (b.setWidth 17) :=
  completes_of_finish he (h.trans (gfValue_ready b he hr))

/-! ### Independence of unit BA (R85) -/

/-- `s` with STORE and every BA and IT register of `u`. -/
def State.withBa (s u : State) : State :=
  { s with store := u.store, dataSize := u.dataSize, allocBytes := u.allocBytes, baState := u.baState, loadPtr := u.loadPtr, loadLen := u.loadLen, itByte := u.itByte, itOff := u.itOff, itValid := u.itValid }

/-- However a value command ends, it ends the same with another unit BA. -/
theorem gfValue_withBa {b : Byte} (u : State) (h : gfValue s b = .next t) :
    gfValue (s.withBa u) b = .next (t.withBa u) := by
  rcases unlessHalted_next h with ⟨he, rfl⟩ | ⟨he, h⟩
  · exact unlessHalted_halted _ he
  rw [gfValue, unlessHalted_running (s := s.withBa u) _ he]
  rcases require_next h with ⟨hr, rfl⟩ | ⟨hr, h⟩
  · exact require_fails hr
  · cases h
    exact require_holds hr

theorem execGfNew_withBa (u : State) (h : execGfNew s = .next t) : execGfNew (s.withBa u) = .next (t.withBa u) := by
  rcases unlessHalted_next h with ⟨he, rfl⟩ | ⟨he, h⟩
  · exact unlessHalted_halted _ he
  · cases h
    exact unlessHalted_running _ he

theorem exec_gf_withBa (u : State) (hi : i.isGf = true) (h : exec i s = .next t) :
    exec i (s.withBa u) = .next (t.withBa u) := by
  cases i with
  | gfNew => exact execGfNew_withBa u h
  | gfAdd | gfSub | gfMul | gfDiv | gfInv => exact gfValue_withBa u h
  | _ => cases hi

end Sys2Proof.Machine

namespace Sys2Proof

open Machine

/-- Settles O26: the product is `gfMul a b`, the remainder of the carry-less product term by term. -/
theorem gfMulReturnsReducedProduct : Obligations.GfMulReturnsReducedProduct := by
  intro a b s he hr
  obtain ⟨q, hq⟩ := clMul_reducesTo_gfMul a b
  exact ⟨gfMul a b, q, completes_of_gfValue he hr rfl, hq⟩

/-- Settles O27: the shortcut for dividend 1 equals the product. -/
theorem gfDivReturnsQuotient : Obligations.GfDivReturnsQuotient := by
  intro a b s he hr
  exact completes_of_gfValue he hr (congrArg (gfValue s) (gfDiv_eq s.inv a b))

/-- Settles O34: no check and no write of a GF command mentions a register of unit BA. -/
theorem gfIndependentOfBa : Obligations.GfIndependentOfBa :=
  fun _ _ _ u hi h => exec_gf_withBa u hi h

/-- Settles O25: both functions are the exclusive-or. -/
theorem gfAddSubReturnXor : Obligations.GfAddSubReturnXor := by
  intro a b s he hr
  exact ⟨completes_of_gfValue he hr rfl, completes_of_gfValue he hr rfl⟩

end Sys2Proof
end

section
/-! The independence of unit BA from unit GF (spec/41_bitarray.md R103): exchanging `inv` and GF_READY commutes
with every guard and storage primitive a BA or IT command is made of, and so with the command. -/

namespace Sys2Proof.Machine

/-- `s` with the inverse table and GF_READY of `u`. -/
def State.withGf (s u : State) : State := { s with inv := u.inv, gfReady := u.gfReady }

/-- The same exchange in the state a command ends in, if it ends in one. -/
def nextWithGf (u : State) : Result → Result
  | .next t => .next (t.withGf u)
  | r => r

variable {s : State} (u : State)

/-! ### Guards -/

theorem unlessHalted_withGf {k k' : Result} (hk : k' = nextWithGf u k) :
    unlessHalted (s.withGf u) k' = nextWithGf u (unlessHalted s k) := by
  cases he : s.err
  · rw [unlessHalted_running k he, ← hk]
    exact unlessHalted_running _ he
  · rw [unlessHalted_halted k he]
    exact unlessHalted_halted _ he

/-- The condition `p` is the same on both sides: no check of a BA or IT command mentions the table or GF_READY. -/
theorem require_withGf {p : Prop} [Decidable p] {c : ErrCode} {k k' : Result} (hk : k' = nextWithGf u k) :
    require p c (s.withGf u) k' = nextWithGf u (require p c s k) := by
  by_cases hp : p
  · rw [require_holds hp, require_holds hp, hk]
  · rw [require_fails hp, require_fails hp]
    rfl

theorem indexed_withGf {n : BitVec 16} {k k' : Result} (hk : k' = nextWithGf u k) :
    indexed n (s.withGf u) k' = nextWithGf u (indexed n s k) :=
  unlessHalted_withGf u (require_withGf u (require_withGf u hk))

theorem withIterator_withGf {k k' : Result} (hk : k' = nextWithGf u k) :
    withIterator (s.withGf u) k' = nextWithGf u (withIterator s k) :=
  unlessHalted_withGf u (require_withGf u (require_withGf u hk))

theorem atIterator_withGf {k k' : Result} (hk : k' = nextWithGf u k) :
    atIterator (s.withGf u) k' = nextWithGf u (atIterator s k) :=
  withIterator_withGf u (require_withGf u hk)

/-! ### Storage primitives -/

theorem memRead_withGf (k : Nat) : memRead (s.withGf u) k = memRead s k := rfl

theorem bitRead_withGf (r : BitRef) : bitRead (s.withGf u) r = bitRead s r := rfl

theorem memWrite_withGf (k : Nat) (v : Byte) :
    memWrite (s.withGf u) k v = (memWrite s k v).map (·.withGf u) := by
  by_cases hk : k < s.allocBytes.toNat
  · rw [memWrite_ok v hk]
    exact memWrite_ok v hk
  · rw [memWrite, memWrite, if_neg hk]
    exact if_neg hk

theorem bitWrite_withGf (r : BitRef) (v : Bool) :
    bitWrite (s.withGf u) r v = (bitWrite s r v).map (·.withGf u) := by
  rw [bitWrite, bitWrite, memRead_withGf]
  cases memRead s r.byte with
  | ok old => exact memWrite_withGf u r.byte _
  | error e => rfl

/-- Going on with what was read. -/
theorem andThen_read_withGf {α : Type} {x x' : Except Fault α} {f f' : α → Result} (hx : x' = x)
    (hf : ∀ a, f' a = nextWithGf u (f a)) : andThen x' f' = nextWithGf u (andThen x f) := by
  rw [hx]
  cases x with
  | ok a => exact hf a
  | error e => rfl

/-- Going on with the state that was written. -/
theorem andThen_written_withGf {x x' : Except Fault State} {f : State → Result} (hx : x' = x.map (·.withGf u))
    (hf : ∀ t, f (t.withGf u) = nextWithGf u (f t)) : andThen x' f = nextWithGf u (andThen x f) := by
  rw [hx]
  cases x with
  | ok t => exact hf t
  | error e => rfl

/-! ### The commands -/

/-- R103, whether the command ends in a next state or not: no write of a BA or IT command touches the table or GF_READY
either, so after the guards and the primitives the two sides are the same state. -/
theorem exec_withGf {i : Instr} (hgf : i.isGf = false) (hst : i ≠ .sysStatus) :
    exec i (s.withGf u) = nextWithGf u (exec i s) := by
  cases i with
  | sysStatus => exact absurd rfl hst
  | gfNew | gfAdd | gfSub | gfMul | gfDiv | gfInv => cases hgf
  | baNewBytes | baNewCount | baNewStr | baSize | itBegin => exact unlessHalted_withGf u (require_withGf u rfl)
  | baPushByte d =>
    exact unlessHalted_withGf u <| require_withGf u <|
      andThen_written_withGf u (memWrite_withGf u _ _) fun _ => rfl
  | baPushChar d =>
    exact unlessHalted_withGf u <| require_withGf u <|
      andThen_written_withGf u (bitWrite_withGf u _ _) fun _ => rfl
  | baGet | baXor => exact indexed_withGf u (andThen_read_withGf u (bitRead_withGf u _) fun _ => rfl)
  | baSet => exact indexed_withGf u (andThen_written_withGf u (bitWrite_withGf u _ _) fun _ => rfl)
  | itNext => exact withIterator_withGf u (require_withGf u rfl)
  | itGet | itXor => exact atIterator_withGf u (andThen_read_withGf u (bitRead_withGf u _) fun _ => rfl)
  | itSet => exact atIterator_withGf u (andThen_written_withGf u (bitWrite_withGf u _ _) fun _ => rfl)
  | itAtEnd => exact withIterator_withGf u rfl

end Sys2Proof.Machine

namespace Sys2Proof

open Machine

/-- Settles O47: the exchange commutes with the command, here for one that ends in a next state. -/
theorem baIndependentOfGf : Obligations.BaIndependentOfGf := by
  intro i s t u hgf hst h
  calc exec i (s.withGf u)
      = nextWithGf u (exec i s) := exec_withGf u hgf hst
    _ = .next (t.withGf u) := by rw [h, nextWithGf]

end Sys2Proof
end

section
/-! The iterator (spec/42_iterator.md): the comparison with End() (R117), and how a command moves the position (R118). -/

namespace Sys2Proof.Machine

variable {i : Instr} {s u : State} {v : Value}

/-! ### The comparison with End() (R115, R117) -/

/-- The position is End() exactly when both components are. -/
theorem itPos_eq_endPos_iff_components (s : State) :
    s.itPos = s.endPos ↔ s.itByte.toNat = s.dataSize.toNat / 8 ∧ s.itOff.toNat = s.dataSize.toNat % 8 := by
  rw [State.itPos, State.endPos, ← bitRefOf_off, BitVec.toNat_inj]
  exact iff_of_eq (BitRef.mk.injEq ..)

theorem boolValue_decide (p : Prop) [Decidable p] : boolValue (decide p) = if p then 1#17 else 0#17 := by
  by_cases hp : p <;> simp [hp, boolValue]

theorem exec_itAtEnd_valid (he : s.err = false) (hr : s.baState = .ready) (hv : s.itValid = true) :
    exec .itAtEnd s = .next (finish (boolValue (decide (s.itPos = s.endPos))) s) :=
  withIterator_valid _ he hr hv

/-! ### The movement of the position (R118) -/

/-- A valid iterator stands at most one byte past the largest array, so advancing IT_BYTE does not wrap. -/
theorem Inv.itByte_le (hi : Inv s) (hv : s.itValid = true) : s.itByte.toNat ≤ 8192 := by
  have hindex := (hi.iterator hv).2
  have hsize := hi.size_le_alloc
  have halloc := hi.alloc_le_cap
  have hcap := s.cfg.cap_le
  unfold State.itIndex at hindex
  omega

/-- The increment of R111, with its roll-over, adds one to the linear index. -/
theorem advanceIterator_itIndex (hb : s.itByte.toNat ≤ 8192) : (advanceIterator s).itIndex = s.itIndex + 1 := by
  have hoff := s.itOff.isLt
  rw [State.itIndex, State.itIndex, advanceIterator_itByte, advanceIterator_itOff]
  split
  · next hroll =>
    rw [BitVec.toNat_add_of_lt (show s.itByte.toNat + 1 < 2 ^ 14 by omega)]
    simp
    omega
  · next hroll =>
    rw [BitVec.toNat_ofNat, Nat.mod_eq_of_lt (by omega)]
    omega

/-- What R118 allows command `i` to do to the iterator of `s`, with `u` the state after it. -/
def MovesForward (i : Instr) (s u : State) : Prop :=
  ((u.itByte = s.itByte ∧ u.itOff = s.itOff) ∨ (i = .itBegin ∧ u.itByte = 0#14 ∧ u.itOff = 0#3) ∨
    (i = .itNext ∧ u.itIndex = s.itIndex + 1)) ∧
  (u.itValid = s.itValid ∨ i = .itBegin ∨ i.isConstruction = true)

theorem MovesForward.of_kept (hb : u.itByte = s.itByte) (ho : u.itOff = s.itOff) (hv : u.itValid = s.itValid) :
    MovesForward i s u :=
  ⟨.inl ⟨hb, ho⟩, .inl hv⟩

/-- A construction leaves the position and invalidates the iterator; a command that is neither a construction nor
IT_BEGIN nor IT_NEXT writes no register of the iterator. -/
theorem Effect.movesForward (hi : Inv s) (e : Effect i s u v) : MovesForward i s u := by
  cases i with
  | sysStatus => cases e
  | itBegin =>
    obtain ⟨-, -, rfl⟩ := e
    exact ⟨.inr (.inl ⟨rfl, rfl, rfl⟩), .inr (.inl rfl)⟩
  | itNext =>
    obtain ⟨-, hv, -, -, rfl⟩ := e
    exact ⟨.inr (.inr ⟨rfl, advanceIterator_itIndex (hi.itByte_le hv)⟩), .inl rfl⟩
  | baNewBytes | baNewCount | baNewStr =>
    obtain ⟨-, -, rfl⟩ := e
    exact ⟨.inl ⟨rfl, rfl⟩, .inr (.inr rfl)⟩
  | gfNew =>
    obtain ⟨rfl, -⟩ := e
    exact .of_kept rfl rfl rfl
  | gfAdd | gfSub | gfMul | gfDiv | gfInv | baSize =>
    obtain ⟨-, rfl, -⟩ := e
    exact .of_kept rfl rfl rfl
  | baGet | baXor | itAtEnd =>
    obtain ⟨-, -, rfl, -⟩ := e
    exact .of_kept rfl rfl rfl
  | itGet | itXor =>
    obtain ⟨-, -, -, rfl, -⟩ := e
    exact .of_kept rfl rfl rfl
  | baPushByte | baPushChar =>
    obtain ⟨-, -, -, rfl⟩ := e
    exact .of_kept rfl rfl rfl
  | baSet =>
    obtain ⟨-, -, -, -, rfl⟩ := e
    exact .of_kept rfl rfl rfl
  | itSet =>
    obtain ⟨-, -, -, -, -, rfl⟩ := e
    exact .of_kept rfl rfl rfl

/-- However a command ends: dropped, answering STATUS or raising a fault it writes no register of the iterator. -/
theorem Ends.movesForward {t : State} (hi : Inv s) (h : Ends i s t) : MovesForward i s t := by
  cases h with
  | dropped _ _ eq | status _ eq | raised _ _ _ eq =>
    subst eq
    exact .of_kept rfl rfl rfl
  | completed _ _ u v effect eq =>
    subst eq
    have hu : MovesForward i s u := effect.movesForward hi
    exact hu

end Sys2Proof.Machine

namespace Sys2Proof

open Machine

/-- Settles O54: IT_ATEND compares the position with End(), component by component, and a bit-reference determines its
linear index. -/
theorem itAtEndComparesWithEnd : Obligations.ItAtEndComparesWithEnd := by
  intro s he hr hv
  simp only [← itPos_eq_endPos_iff_components, ← boolValue_decide]
  exact ⟨completes_of_finish he (exec_itAtEnd_valid he hr hv), itPos_eq_endPos s⟩

/-- Settles O57: from the effects of the commands; the invariant bounds IT_BYTE where IT_NEXT advances it. -/
theorem iteratorMovesForwardOnly : Obligations.IteratorMovesForwardOnly :=
  fun _ _ _ hi h => (exec_cases h).movesForward hi

end Sys2Proof
end

section
/-! Faults and the halted state (spec/60_exceptions.md R130 to R132): what a step on a command word is, what every command
does while ERR = 1, and that ERR is set by a fault and by nothing else. -/

namespace Sys2Proof.Machine

variable {s t u : State} {w : Word} {rest : List HostEvent} {i : Instr} {v : Value}

/-! ### A step on a command word (R126, R54) -/

/-- A well-formed word is carried out as the command it decodes to. -/
theorem step_command (hin : s.hostIn = .cmd w :: rest) (hd : decode w = .ok i) :
    step s = exec i { s with hostIn := rest } := by
  simp only [step, hin, hd]

theorem step_illegal {e : DecodeReject} (hin : s.hostIn = .cmd w :: rest) (hd : decode w = .error e) :
    step s = execIllegal { s with hostIn := rest } := by
  simp only [step, hin, hd]

/-! ### The halted state (R132) -/

/-- Every command but SYS_STATUS asks first whether the engine is halted. -/
theorem exec_halted (he : s.err = true) (hne : i ≠ .sysStatus) : exec i s = .next (dropCommand s) := by
  cases i with
  | sysStatus => exact absurd rfl hne
  | _ => exact unlessHalted_halted _ he

theorem execIllegal_halted (he : s.err = true) : execIllegal s = .next (dropCommand s) := unlessHalted_halted _ he

theorem step_halted_dropped (hin : s.hostIn = .cmd w :: rest) (he : s.err = true) (hne : decode w ≠ .ok .sysStatus) :
    step s = .next (dropCommand { s with hostIn := rest }) := by
  cases hd : decode w with
  | ok i =>
    have hi : i ≠ .sysStatus := fun h => hne (h ▸ hd)
    exact (step_command hin hd).trans (exec_halted he hi)
  | error e => exact (step_illegal hin hd).trans (execIllegal_halted he)

/-- A response of the halted engine carries ERR = 1. -/
theorem respond_halted (he : s.err = true) (v : Value) :
    s.respond v = { s with hostOut := s.hostOut ++ [responseWord true s.errCode v] } := by
  rw [State.respond, he]

/-! ### What sets ERR (R131) -/

/-- The eight faults have the codes 1 to 8 (R130). -/
theorem code_range (c : ErrCode) : 1 ≤ c.code.toNat ∧ c.code.toNat ≤ 8 := by
  cases c <;> decide

/-- No command's own writes touch ERR. -/
theorem Effect.err_eq (e : Effect i s u v) : u.err = s.err := by
  cases i with
  | sysStatus => cases e
  | gfNew =>
    obtain ⟨rfl, -⟩ := e
    rfl
  | gfAdd | gfSub | gfMul | gfDiv | gfInv | baSize =>
    obtain ⟨-, rfl, -⟩ := e
    rfl
  | baNewBytes | baNewCount | baNewStr | itBegin =>
    obtain ⟨-, -, rfl⟩ := e
    rfl
  | baGet | baXor | itAtEnd =>
    obtain ⟨-, -, rfl, -⟩ := e
    rfl
  | baPushByte | baPushChar =>
    obtain ⟨-, -, -, rfl⟩ := e
    rfl
  | itGet | itXor =>
    obtain ⟨-, -, -, rfl, -⟩ := e
    rfl
  | baSet | itNext =>
    obtain ⟨-, -, -, -, rfl⟩ := e
    rfl
  | itSet =>
    obtain ⟨-, -, -, -, -, rfl⟩ := e
    rfl

/-- On a running engine a command that ends with ERR = 1 has raised a fault. -/
theorem Ends.takeFault_of_err (h : Ends i s t) (he : s.err = false) (ht : t.err = true) : ∃ c, t = takeFault c s := by
  cases h with
  | raised _ _ c eq => exact ⟨c, eq⟩
  | dropped halted => simp [he] at halted
  | status _ eq => simp [eq, he] at ht
  | completed _ _ u v effect eq => simp [eq, effect.err_eq, he] at ht

theorem execIllegal_running (he : s.err = false) : execIllegal s = .next (takeFault .illegal s) :=
  unlessHalted_running _ he

/-- On a running engine a step on a command word, legal or not, that ends with ERR = 1 has raised a fault. -/
theorem takeFault_of_step_err (hin : s.hostIn = .cmd w :: rest) (he : s.err = false) (h : step s = .next t)
    (ht : t.err = true) : ∃ c, t = takeFault c { s with hostIn := rest } := by
  cases hd : decode w with
  | ok i =>
    rw [step_command hin hd] at h
    exact (exec_cases h).takeFault_of_err he ht
  | error e =>
    have hfault : step s = .next (takeFault .illegal { s with hostIn := rest }) :=
      (step_illegal hin hd).trans (execIllegal_running he)
    rw [hfault] at h
    exact ⟨.illegal, by injection h with h; exact h.symm⟩

end Sys2Proof.Machine

namespace Sys2Proof

open Machine

/-- Settles O19: the step has taken a fault, and `takeFault` writes ERR, ERR_CODE and the response only. -/
theorem faultsArePrecise : Obligations.FaultsArePrecise := by
  intro s t w rest hin he h ht
  obtain ⟨c, rfl⟩ := takeFault_of_step_err hin he h ht
  obtain ⟨hlow, hhigh⟩ := code_range c
  exact ⟨c.code, hlow, hhigh, rfl⟩

/-- Settles O21: a dropped word and SYS_STATUS both only respond, and a halted engine responds with ERR = 1. -/
theorem haltedEngineDropsCommands : Obligations.HaltedEngineDropsCommands := by
  intro s w rest hin he
  have he' : { s with hostIn := rest }.err = true := he
  constructor
  · intro hne
    rw [step_halted_dropped hin he hne, dropCommand, respond_halted he']
  · intro hd
    rw [step_command hin hd, exec_sysStatus, respond_halted he']
    rfl

end Sys2Proof
end

section
/-! The reset event (spec/70_reset_and_hazards.md R150, R151): the step that takes it, and STATUS after it. -/

namespace Sys2Proof.Machine

variable {s : State} {rest : List HostEvent}

/-- R151: the reset event is taken in every state, the halted one included. -/
theorem step_rst (hin : s.hostIn = .rst :: rest) : step s = .next (takeReset { s with hostIn := rest }) := by
  rw [step, hin]

@[simp] theorem takeReset_status (s : State) : (takeReset s).status = 0#17 := by
  simp [State.status, BaState.code]

end Sys2Proof.Machine

namespace Sys2Proof

open Machine

/-- Settles O9: the next state is `takeReset`, which takes no field but the parameters and the port from the state before
it. -/
theorem resetEventClearsEngine : Obligations.ResetEventClearsEngine := by
  intro s rest hin
  exact ⟨takeReset { s with hostIn := rest }, step_rst hin, rfl, takeReset_status _⟩

end Sys2Proof
end

section
/-! The command word and back (spec/30_encoding.md R50 to R54): the decoder on the word of a command, and the encoder on a
word that decodes. -/

namespace Sys2Proof

/-- The decoder reads the opcode, finds no reserved bit set and reads the operands from their own bits. -/
theorem decode_encode (i : Instr) : decode (encode i) = .ok i := by
  cases i with
  | sysStatus | gfNew | baSize | itBegin | itNext | itGet | itAtEnd =>
    simp only [encode, decode, encodeN_opcode, ofFormat_of_reserved _ (encodeN_reserved _)]
  | gfAdd | gfSub | gfMul | gfDiv =>
    simp only [encode, decode, encodeG_opcode, ofFormat_of_reserved _ (encodeG_reserved ..), encodeG_a, encodeG_b]
  | gfInv | baPushByte | baPushChar =>
    simp only [encode, decode, encodeB_opcode, ofFormat_of_reserved _ (encodeB_reserved ..), encodeB_d]
  | baNewBytes | baNewCount | baNewStr | baGet =>
    simp only [encode, decode, encodeW_opcode, ofFormat_of_reserved _ (encodeW_reserved ..), encodeW_n]
  | baSet | baXor =>
    simp only [encode, decode, encodeWV_opcode, ofFormat_of_reserved _ (encodeWV_reserved ..), encodeWV_n, encodeWV_v]
  | itSet | itXor =>
    simp only [encode, decode, encodeV_opcode, ofFormat_of_reserved _ (encodeV_reserved ..), encodeV_v]

/-- The word of a command is rebuilt from its fields by the encoder of the format it was decoded by. -/
theorem encode_decode {w : Word} {i : Instr} (h : decode w = .ok i) : encode i = w := by
  unfold decode at h
  split at h
  case h_23 => cases h
  all_goals
    rename_i hop
    obtain ⟨hres, rfl⟩ := ofFormat_ok h
    simp only [encode, ← hop]
  -- the branches of each format, N, G, B, W, WV and V
  case h_1 | h_2 | h_16 | h_17 | h_18 | h_19 | h_22 => exact encodeN_fields w hres
  case h_3 | h_4 | h_5 | h_6 => exact encodeG_fields w hres
  case h_7 | h_11 | h_12 => exact encodeB_fields w hres
  case h_8 | h_9 | h_10 | h_13 => exact encodeW_fields w hres
  case h_14 | h_15 => exact encodeWV_fields w hres
  case h_20 | h_21 => exact encodeV_fields w hres

/-- Settles O1, format by format. -/
theorem decodeEncodeRoundTrip : Obligations.DecodeEncodeRoundTrip := decode_encode

/-- Settles O2: the branch of the decoder fixes the opcode and the format, and nothing of the word is left. -/
theorem encodeDecodeRoundTrip : Obligations.EncodeDecodeRoundTrip := fun _ _ => encode_decode

end Sys2Proof
end

section
/-! The textual form (spec/30_encoding.md R58): how a line of words lexes, what the written numbers read as, and the line
of a command read back. -/

namespace Sys2Proof.Machine

/-! ### Lexing words (R58) -/

/-- A mnemonic or a number: some characters, all of them of `wordChar`. -/
def IsWord (m : List Char) : Prop := m ≠ [] ∧ ∀ c ∈ m, wordChar c = true

/-- No character of a word separates, quotes or begins a comment. -/
theorem lexLine_append_word {m : List Char} (hm : ∀ c ∈ m, wordChar c = true) (cs w : List Char) :
    lexLine (m ++ cs) w none = lexLine cs (m.reverse ++ w) none := by
  induction m generalizing w with
  | nil => rfl
  | cons c m ih =>
    obtain ⟨hc, hm⟩ := List.forall_mem_cons.1 hm
    have hne : ∀ d, wordChar d = false → c ≠ d := by
      rintro d hd rfl
      simp [hc] at hd
    rw [List.cons_append, lexLine, if_pos hc, ih hm, List.reverse_cons, List.append_assoc, List.singleton_append]
    case x_8 => exact fun _ _ h => absurd h (hne _ rfl)
    all_goals exact hne _ rfl

theorem flushWord_reverse {m : List Char} (hm : m ≠ []) (ts : List Tok) : flushWord m.reverse ts = .word m :: ts := by
  rw [flushWord, if_neg (by simpa using hm), List.reverse_reverse]

section
variable {m : List Char} (hm : IsWord m) (cs : List Char)
include hm

theorem lexLine_word : lexLine m [] none = some [.word m] := by
  have h := lexLine_append_word hm.2 [] []
  rw [List.append_nil, List.append_nil] at h
  rw [h, lexLine, flushWord_reverse hm.1]

theorem lexLine_word_blank : lexLine (m ++ ' ' :: cs) [] none = (lexLine cs [] none).map (.word m :: ·) := by
  rw [lexLine_append_word hm.2, List.append_nil, lexLine]
  exact congrArg (Option.map · _) (funext (flushWord_reverse hm.1))

theorem lexLine_word_comma :
    lexLine (m ++ ',' :: cs) [] none = (lexLine cs [] none).map (.word m :: .comma :: ·) := by
  rw [lexLine_append_word hm.2, List.append_nil, lexLine]
  simp only [flushWord_reverse hm.1]

end

theorem lexLine_blank (cs : List Char) : lexLine (' ' :: cs) [] none = lexLine cs [] none := by
  rw [lexLine, show flushWord [] = id from rfl, Option.map_id, id]

/-! ### Lines of words -/

section
variable {m : String} {t u : List Char} {a b : Nat} (hm : IsWord m.toList) (ht : IsWord t) (hu : IsWord u)
include hm

theorem readLine_bare : readLine m.toList = buildLine m [] := by
  rw [readLine, lexLine_word hm]
  exact congrArg (buildLine · []) String.ofList_toList

include ht

theorem readLine_operand (ha : readNumber t = some a) :
    readLine (m.toList ++ ' ' :: t) = buildLine m [.num a] := by
  rw [readLine, lexLine_word_blank hm, lexLine_word ht]
  simp [readOperands, readOperand, ha]

include hu

theorem readLine_operands (ha : readNumber t = some a) (hb : readNumber u = some b) :
    readLine (m.toList ++ ' ' :: (t ++ ',' :: ' ' :: u)) = buildLine m [.num a, .num b] := by
  rw [readLine, lexLine_word_blank hm, lexLine_word_comma ht, lexLine_blank, lexLine_word hu]
  simp [readOperands, readOperand, ha, hb]

end

/-! ### The text of a number (R58) -/

theorem wordChar_hexDigit : ∀ d : BitVec 4, wordChar (hexDigit d) = true := by decide

theorem digitValue_hexDigit : ∀ d : BitVec 4, digitValue (hexDigit d) = some d.toNat := by decide

theorem digits_hexDigit (d : BitVec 4) (cs : List Char) (acc : Nat) :
    digits 16 (hexDigit d :: cs) acc = digits 16 cs (acc * 16 + d.toNat) := by
  rw [digits, digitValue_hexDigit]
  exact if_pos d.isLt

theorem isWord_mnemonic (i : Instr) : IsWord i.mnemonic.toList := by
  have hall : i.mnemonic.toList.all wordChar = true := by cases i <;> simp only [Instr.mnemonic] <;> decide
  exact ⟨by cases i <;> simp [Instr.mnemonic], List.all_eq_true.1 hall⟩

theorem isWord_byteText (b : Byte) : IsWord (byteText b) := by
  have hx : wordChar '0' = true ∧ wordChar 'x' = true := by decide
  simp [IsWord, byteText, wordChar_hexDigit, hx]

theorem isWord_wordText (n : BitVec 16) : IsWord (wordText n) := by
  have hx : wordChar '0' = true ∧ wordChar 'x' = true := by decide
  simp [IsWord, wordText, wordChar_hexDigit, hx]

theorem isWord_boolText (v : Bool) : IsWord (boolText v) := by
  have hx : wordChar '0' = true ∧ wordChar '1' = true := by decide
  cases v <;> simp [IsWord, boolText, hx]

/-- A byte is 16 times its upper digit and its lower one. -/
theorem readNumber_byteText (b : Byte) : readNumber (byteText b) = some b.toNat := by
  show digits 16 [_, _] 0 = _
  rw [digits_hexDigit, digits_hexDigit, digits]
  simp only [BitVec.extractLsb'_toNat, Nat.shiftRight_eq_div_pow]
  congr 1
  omega

theorem readNumber_wordText (n : BitVec 16) : readNumber (wordText n) = some n.toNat := by
  show digits 16 [_, _, _, _] 0 = _
  rw [digits_hexDigit, digits_hexDigit, digits_hexDigit, digits_hexDigit, digits]
  simp only [BitVec.extractLsb'_toNat, Nat.shiftRight_eq_div_pow]
  congr 1
  omega

theorem readNumber_boolText (v : Bool) : readNumber (boolText v) = some v.toNat := by
  cases v <;> rfl

/-! ### The operand a number stands for (R52) -/

@[simp] theorem byteOperand_toNat (b : Byte) : byteOperand b.toNat = some b := by
  rw [byteOperand, if_pos b.isLt, BitVec.ofNat_toNat, BitVec.setWidth_eq]

@[simp] theorem wordOperand_toNat (n : BitVec 16) : wordOperand n.toNat = some n := by
  rw [wordOperand, if_pos n.isLt, BitVec.ofNat_toNat, BitVec.setWidth_eq]

@[simp] theorem boolOperand_toNat (v : Bool) : boolOperand v.toNat = some v := by
  cases v <;> rfl

/-! ### The line of a command, format by format -/

theorem readLine_lineText (i : Instr) : readLine (lineText i) = some (.command i) := by
  have hm := isWord_mnemonic i
  cases i with
  | sysStatus | gfNew | baSize | itBegin | itNext | itGet | itAtEnd =>
    rw [lineText, operandText, List.append_nil, readLine_bare hm]
    rfl
  | gfAdd a b | gfSub a b | gfMul a b | gfDiv a b =>
    have h := readLine_operands hm (isWord_byteText a) (isWord_byteText b) (readNumber_byteText a) (readNumber_byteText b)
    simpa [lineText, operandText, Instr.mnemonic, buildLine, lineG] using h
  | gfInv d | baPushByte d | baPushChar d =>
    have h := readLine_operand hm (isWord_byteText d) (readNumber_byteText d)
    simpa [lineText, operandText, Instr.mnemonic, buildLine, lineB, lineChar] using h
  | baNewBytes n | baNewCount n | baNewStr n | baGet n =>
    have h := readLine_operand hm (isWord_wordText n) (readNumber_wordText n)
    simpa [lineText, operandText, Instr.mnemonic, buildLine, lineW] using h
  | baSet n v | baXor n v =>
    have h := readLine_operands hm (isWord_wordText n) (isWord_boolText v) (readNumber_wordText n) (readNumber_boolText v)
    simpa [lineText, operandText, Instr.mnemonic, buildLine, lineWV] using h
  | itSet v | itXor v =>
    have h := readLine_operand hm (isWord_boolText v) (readNumber_boolText v)
    simpa [lineText, operandText, Instr.mnemonic, buildLine, lineV] using h

end Sys2Proof.Machine

namespace Sys2Proof

open Machine

/-- Settles O6: the words of a line lex apart, and each written number reads back as its operand. -/
theorem lineTextRoundTrip : Obligations.LineTextRoundTrip := readLine_lineText

/-- Settles O5: the reader and the encoder evaluated on each listed line. -/
theorem exampleLinesAssemble : Obligations.ExampleLinesAssemble := by
  unfold Obligations.ExampleLinesAssemble
  decide

end Sys2Proof
end

section
/-! The field laws of `gfMul` (spec/40_gf256.md R80, R81): multiplication is linear in each operand, so a law that is linear
in an operand holds when it holds at the eight powers of x. -/

namespace Sys2Proof.Machine

/-! ### Linear functions on bytes -/

/-- `f` respects the addition of R70. -/
def XorLinear (f : Byte → Byte) : Prop := ∀ a b, f (a ^^^ b) = f a ^^^ f b

/-- Every byte is the sum of the powers of x at its set bits. -/
theorem bitSum_twoPow_self : ∀ b : Byte, bitSum (BitVec.twoPow 8) b = b := by decide +kernel

section
variable {f g : Byte → Byte} (hf : XorLinear f) (hg : XorLinear g)
include hf

theorem XorLinear.zero : f 0x00#8 = 0x00#8 := by
  simpa using hf 0x00#8 0x00#8

theorem XorLinear.iterate (k : Nat) : XorLinear f^[k] := by
  induction k with
  | zero => exact fun _ _ => rfl
  | succ k ih => 
    intro a b
    rw [Function.iterate_succ_apply, hf a b]
    exact ih (f a) (f b)

include hg

theorem XorLinear.comp : XorLinear (f ∘ g) := fun a b => by
  rw [Function.comp_apply, hg a b]
  exact hf (g a) (g b)

theorem XorLinear.xor : XorLinear fun b => f b ^^^ g b := fun a b => by
  simp only [hf a b, hg a b]
  ac_rfl

/-- Linear functions that agree at the powers of x agree. -/
theorem XorLinear.eq_of_twoPow (h : ∀ k < 8, f (BitVec.twoPow 8 k) = g (BitVec.twoPow 8 k)) (b : Byte) : f b = g b := by
  rw [← bitSum_twoPow_self b, bitSum]
  refine List.foldlRecOn (motive := fun p => f p = g p) _ _ (hf.zero.trans hg.zero.symm) fun p hp k hk => ?_
  unfold addTerm
  split
  · rw [hf, hg, hp, h k (List.mem_range.1 hk)]
  · exact hp

end

/-! ### Multiplication is linear in each operand (R81) -/

theorem xtime_linear : XorLinear xtime := by
  intro a b
  simp only [xtime, BitVec.getLsbD_xor, BitVec.shiftLeft_xor_distrib]
  cases a.getLsbD 7 <;> cases b.getLsbD 7
  · rfl
  · exact BitVec.xor_assoc ..
  · simp only [Bool.xor_false, if_true, Bool.false_eq_true, if_false]
    ac_rfl
  · simp only [Bool.xor_self, Bool.false_eq_true, if_false, if_true]
    calc a <<< 1 ^^^ b <<< 1
        = a <<< 1 ^^^ b <<< 1 ^^^ (reductionConstant ^^^ reductionConstant) := by simp
      _ = a <<< 1 ^^^ reductionConstant ^^^ (b <<< 1 ^^^ reductionConstant) := by ac_rfl

theorem gfMul_linear_right (a : Byte) : XorLinear (gfMul a) := fun b c => by
  simp only [gfMul_eq_bitSum, bitSum_xor]

/-- Multiplying by a power of x. -/
theorem gfMul_twoPow (a : Byte) {k : Nat} (hk : k < 8) : gfMul a (BitVec.twoPow 8 k) = xtime^[k] a := by
  rw [gfMul_eq_bitSum, bitSum_twoPow _ hk]

theorem gfMul_linear_left (b : Byte) : XorLinear (gfMul · b) := fun a c => by
  refine (gfMul_linear_right (a ^^^ c)).eq_of_twoPow ((gfMul_linear_right a).xor (gfMul_linear_right c)) (fun k hk => ?_) b
  simp only [gfMul_twoPow _ hk]
  exact xtime_linear.iterate k a c

/-! ### The laws (R80, R81) -/

theorem gfMul_comm (a b : Byte) : gfMul a b = gfMul b a := by
  refine (gfMul_linear_right a).eq_of_twoPow (gfMul_linear_left a) (fun k hk => ?_) b
  refine (gfMul_linear_left _).eq_of_twoPow (gfMul_linear_right _) (fun j hj => ?_) a
  have hpow : ∀ j < 8, ∀ k < 8, xtime^[k] (BitVec.twoPow 8 j) = xtime^[j] (BitVec.twoPow 8 k) := by decide
  rw [gfMul_twoPow _ hk, gfMul_twoPow _ hj, hpow j hj k hk]

theorem gfMul_xtime_left (a b : Byte) : gfMul (xtime a) b = xtime (gfMul a b) := by
  refine (gfMul_linear_right _).eq_of_twoPow (xtime_linear.comp (gfMul_linear_right a)) (fun k hk => ?_) b
  rw [Function.comp_apply, gfMul_twoPow _ hk, gfMul_twoPow _ hk, ← Function.iterate_succ_apply,
    Function.iterate_succ_apply']

/-- Multiplying by `a` commutes with `xtime`, and so with multiplying by a power of x. -/
theorem gfMul_iterate_xtime (a b : Byte) (k : Nat) : gfMul a (xtime^[k] b) = xtime^[k] (gfMul a b) := by
  have hcomm : Function.Semiconj (gfMul a) xtime xtime := fun b => by
    rw [gfMul_comm, gfMul_xtime_left, gfMul_comm b]
  exact hcomm.iterate_right k b

theorem gfMul_assoc (a b c : Byte) : gfMul (gfMul a b) c = gfMul a (gfMul b c) := by
  refine (gfMul_linear_right _).eq_of_twoPow ((gfMul_linear_right a).comp (gfMul_linear_right b)) (fun k hk => ?_) c
  rw [Function.comp_apply, gfMul_twoPow _ hk, gfMul_twoPow _ hk, gfMul_iterate_xtime]

theorem gfMul_one_right (a : Byte) : gfMul a 0x01#8 = a := (gfMul_comm a _).trans (gfMul_one_left a)

@[simp] theorem gfMul_zero_right (a : Byte) : gfMul a 0x00#8 = 0x00#8 := (gfMul_linear_right a).zero

@[simp] theorem gfMul_zero_left (a : Byte) : gfMul 0x00#8 a = 0x00#8 := (gfMul_linear_left a).zero

end Sys2Proof.Machine

namespace Sys2Proof

open Machine

/-- Settles O31: each law is linear in the operand it is proved over. -/
theorem gfMulFieldLaws : Obligations.GfMulFieldLaws :=
  ⟨gfMul_comm, gfMul_assoc, gfMul_linear_right, gfMul_one_right, gfMul_zero_right⟩

end Sys2Proof
end

section
/-! The inverse table (spec/40_gf256.md R73, R81): the listed table holds the inverses, an inverse is unique, and so the
construction of R73 can write nothing but listed entries. -/

namespace Sys2Proof.Machine

/-! ### The listed table -/

/-- Row by row through spec/95_test_vectors.md section 3. -/
theorem listed_inverses :
    ∀ p ∈ invListedNat.zipIdx, p.2 ≠ 0 → gfMul (BitVec.ofNat 8 p.2) (BitVec.ofNat 8 p.1) = 0x01#8 := by decide +kernel

theorem length_invListedNat : invListedNat.length = 256 := by decide +kernel

theorem invRead_invTable (a : Byte) :
    ∃ n, (n, a.toNat) ∈ invListedNat.zipIdx ∧ invRead invTable a = BitVec.ofNat 8 n := by
  have ha : a.toNat < invListedNat.length := length_invListedNat ▸ a.isLt
  exact ⟨invListedNat[a.toNat], List.mem_zipIdx_iff_getElem?.2 (List.getElem?_eq_getElem ha), by
    simp [invRead, invTable]⟩

theorem gfMul_invTable {a : Byte} (ha : a ≠ 0x00#8) : gfMul a (invRead invTable a) = 0x01#8 := by
  obtain ⟨n, hn, h⟩ := invRead_invTable a
  have h1 := listed_inverses _ hn fun h0 => ha (BitVec.eq_of_toNat_eq h0)
  rwa [BitVec.ofNat_toNat, BitVec.setWidth_eq, ← h] at h1

theorem invTable_zero : invRead invTable 0x00#8 = 0x00#8 := by decide +kernel

/-! ### Inverses are unique (R81) -/

theorem left_ne_zero_of_gfMul_eq_one {a b : Byte} (h : gfMul a b = 0x01#8) : a ≠ 0x00#8 := by
  rintro rfl
  simp at h

theorem eq_invTable_of_gfMul_eq_one {a b : Byte} (h : gfMul a b = 0x01#8) : b = invRead invTable a := by
  have ha := left_ne_zero_of_gfMul_eq_one h
  calc b
      = gfMul (gfMul a (invRead invTable a)) b := by rw [gfMul_invTable ha, gfMul_one_left]
    _ = gfMul (invRead invTable a) (gfMul a b) := by rw [gfMul_comm a, gfMul_assoc]
    _ = invRead invTable a := by rw [h, gfMul_one_right]

theorem invTable_ne_zero {a : Byte} (ha : a ≠ 0x00#8) : invRead invTable a ≠ 0x00#8 :=
  left_ne_zero_of_gfMul_eq_one ((gfMul_comm _ a).trans (gfMul_invTable ha))

theorem invTable_involutive (a : Byte) : invRead invTable (invRead invTable a) = a := by
  by_cases ha : a = 0x00#8
  · rw [ha, invTable_zero, invTable_zero]
  · exact (eq_invTable_of_gfMul_eq_one ((gfMul_comm _ a).trans (gfMul_invTable ha))).symm

/-- An element that is its own inverse has square 1. -/
theorem invTable_eq_self_iff (a : Byte) : invRead invTable a = a ↔ a = 0x00#8 ∨ a = 0x01#8 := by
  have hsquare : ∀ a : Byte, gfMul a a = 0x01#8 ↔ a = 0x01#8 := by decide +kernel
  by_cases ha : a = 0x00#8
  · simp [ha, invTable_zero]
  · simp only [ha, false_or]
    rw [← hsquare a]
    exact ⟨fun h => by rw [← gfMul_invTable ha, h], fun h => (eq_invTable_of_gfMul_eq_one h).symm⟩

/-! ### The construction (R73) -/

theorem invRead_invWrite (t : Vector Byte 256) (a v c : Byte) :
    invRead (invWrite t a v) c = if c = a then v else invRead t c := by
  simp only [invRead, invWrite, Vector.getElem_set, BitVec.toNat_inj, eq_comm]

theorem invTable_ext {t u : Vector Byte 256} (h : ∀ a, invRead t a = invRead u a) : t = u :=
  Vector.ext fun i hi => by
    have := h (BitVec.ofNat 8 i)
    simpa [invRead, Nat.mod_eq_of_lt hi] using this

theorem mem_bytesFromOne {a : Byte} : a ∈ bytesFromOne ↔ a ≠ 0x00#8 := by
  simp only [bytesFromOne, List.mem_map, List.mem_range'_1]
  constructor
  · rintro ⟨n, hn, rfl⟩ h0
    have := congrArg BitVec.toNat h0
    simp only [BitVec.toNat_ofNat] at this
    omega
  · intro ha
    have hpos : a.toNat ≠ 0 := fun h0 => ha (BitVec.eq_of_toNat_eq h0)
    exact ⟨a.toNat, ⟨by omega, by omega⟩, by rw [BitVec.ofNat_toNat, BitVec.setWidth_eq]⟩

/-- A pair with product 1 is written as the two listed entries. -/
theorem invRead_writePair {a b : Byte} (h : gfMul a b = 0x01#8) (t : Vector Byte 256) (c : Byte) :
    invRead (invWrite (invWrite t a b) b a) c = if c = a ∨ c = b then invRead invTable c else invRead t c := by
  have hb := eq_invTable_of_gfMul_eq_one h
  have ha := eq_invTable_of_gfMul_eq_one ((gfMul_comm b a).trans h)
  rw [invRead_invWrite, invRead_invWrite]
  by_cases hcb : c = b
  · rw [if_pos hcb, if_pos (.inr hcb), hcb]
    exact ha
  · by_cases hca : c = a
    · rw [if_neg hcb, if_pos hca, if_pos (.inl hca), hca]
      exact hb
    · rw [if_neg hcb, if_neg hca, if_neg (by simp [hca, hcb])]

/-- What the inner loop of R73 does at `b`. -/
def scanStep (a : Byte) (t : Vector Byte 256) (b : Byte) : Vector Byte 256 :=
  if gfMul a b = 0x01#8 then invWrite (invWrite t a b) b a else t

theorem scanInverse_eq_foldl (t : Vector Byte 256) (a : Byte) : scanInverse t a = bytesFromOne.foldl (scanStep a) t := rfl

/-- The scan over `l` finds the inverse if it is there, and writes nothing else. -/
theorem invRead_foldl_scanStep {a : Byte} (ha : a ≠ 0x00#8) (l : List Byte) (t : Vector Byte 256) (c : Byte) :
    invRead (l.foldl (scanStep a) t) c =
      if invRead invTable a ∈ l ∧ (c = a ∨ c = invRead invTable a) then invRead invTable c else invRead t c := by
  induction l generalizing t with
  | nil => simp
  | cons b l ih =>
    rw [List.foldl_cons, ih, scanStep]
    by_cases h : gfMul a b = 0x01#8
    · rw [if_pos h, invRead_writePair h, eq_invTable_of_gfMul_eq_one h]
      by_cases hc : c = a ∨ c = invRead invTable a <;> simp [hc]
    · have hb : invRead invTable a ≠ b := fun hb => h (hb ▸ gfMul_invTable ha)
      rw [if_neg h]
      simp [hb]

theorem invRead_scanInverse {a : Byte} (ha : a ≠ 0x00#8) (t : Vector Byte 256) (c : Byte) :
    invRead (scanInverse t a) c =
      if c = a ∨ c = invRead invTable a then invRead invTable c else invRead t c := by
  rw [scanInverse_eq_foldl, invRead_foldl_scanStep ha]
  simp only [mem_bytesFromOne.2 (invTable_ne_zero ha), true_and]

/-- What the outer loop of R73 does at `a`. -/
def buildStep (t : Vector Byte 256) (a : Byte) : Vector Byte 256 :=
  if invRead t a ≠ 0x00#8 then t else scanInverse t a

/-- A table in construction: every entry is still 0 or is the listed one. -/
def PartOfTable (t : Vector Byte 256) : Prop :=
  ∀ c, invRead t c = 0x00#8 ∨ invRead t c = invRead invTable c

/-- One round of the outer loop leaves each entry or makes it the listed one, and the entry of `a` is the listed one after
it. -/
theorem invRead_buildStep {t : Vector Byte 256} (ht : PartOfTable t) {a : Byte} (ha : a ≠ 0x00#8) (c : Byte) :
    (invRead (buildStep t a) c = invRead t c ∧ c ≠ a) ∨ invRead (buildStep t a) c = invRead invTable c := by
  unfold buildStep
  split
  · next hpopulated =>
    by_cases hc : c = a
    · exact .inr (hc ▸ (ht a).resolve_left hpopulated)
    · exact .inl ⟨rfl, hc⟩
  · rw [invRead_scanInverse ha]
    split
    · exact .inr rfl
    · next hc => exact .inl ⟨rfl, fun h => hc (.inl h)⟩

theorem PartOfTable.buildStep {t : Vector Byte 256} (ht : PartOfTable t) {a : Byte} (ha : a ≠ 0x00#8) :
    PartOfTable (buildStep t a) := fun c => by
  rcases invRead_buildStep ht ha c with ⟨h, -⟩ | h
  · exact h ▸ ht c
  · exact .inr h

/-- After the rounds for `l` every entry of `l` is the listed one. -/
theorem invRead_foldl_buildStep {l : List Byte} (hl : ∀ a ∈ l, a ≠ 0x00#8) {t : Vector Byte 256} (ht : PartOfTable t)
    {c : Byte} (hc : c ∈ l ∨ invRead t c = invRead invTable c) :
    invRead (l.foldl buildStep t) c = invRead invTable c := by
  induction l generalizing t with
  | nil => simpa using hc
  | cons a l ih =>
    obtain ⟨ha, hl⟩ := List.forall_mem_cons.1 hl
    refine ih hl (ht.buildStep ha) ?_
    rcases invRead_buildStep ht ha c with ⟨h, hne⟩ | h
    · simpa [h, hne] using hc
    · exact .inr h

theorem buildInv_eq_invTable : buildInv = invTable := by
  have hbuild : buildInv = bytesFromOne.foldl buildStep (Vector.replicate 256 0x00#8) := by
    unfold buildInv
    rfl
  have hzero : ∀ c, invRead (Vector.replicate 256 0x00#8) c = 0x00#8 := fun c => by simp [invRead]
  rw [hbuild]
  refine invTable_ext fun c => invRead_foldl_buildStep (fun a => mem_bytesFromOne.1) (fun c => .inl (hzero c)) ?_
  by_cases hc : c = 0x00#8
  · exact .inr (by rw [hzero, hc, invTable_zero])
  · exact .inl (mem_bytesFromOne.2 hc)

/-! ### Division (R78, R81) -/

theorem gfDiv_of_ne_zero (t : Vector Byte 256) (a : Byte) {b : Byte} (hb : b ≠ 0x00#8) :
    gfDiv t a b = gfMul a (invRead t b) := by
  rw [gfDiv_eq]
  by_cases ha : a = 0x00#8
  · rw [if_pos (.inl ha), ha, gfMul_zero_left]
  · rw [if_neg (by simp [ha, hb])]

end Sys2Proof.Machine

namespace Sys2Proof

open Machine

/-- Settles O32: the table that is built is the listed one. -/
theorem inverseTableIsCorrect : Obligations.InverseTableIsCorrect := by
  unfold Obligations.InverseTableIsCorrect
  rw [buildInv_eq_invTable]
  exact ⟨fun _ => gfMul_invTable, invTable_zero, invTable_involutive, invTable_eq_self_iff⟩

/-- Settles O33: dividing by a nonzero element is multiplying by its inverse. -/
theorem divisionUndoesMultiplication : Obligations.DivisionUndoesMultiplication := by
  intro a b hb
  simp only [gfDiv_of_ne_zero _ _ hb, buildInv_eq_invTable]
  have hinv := gfMul_invTable hb
  refine ⟨?_, ?_, hinv⟩
  · rw [gfMul_assoc, gfMul_comm _ b, hinv, gfMul_one_right]
  · rw [gfMul_assoc, hinv, gfMul_one_right]

end Sys2Proof
end

section
/-! The commands of unit GF that are not arithmetic on two bytes: GF_NEW and GF_INV (spec/40_gf256.md R74, R79), and the
fault of the five value commands (R75 to R79). -/

namespace Sys2Proof.Machine

variable {i : Instr} {s u : State} {v : Value}

/-- The same as `completes_of_finish`, for a command that writes other registers too. -/
theorem completes_of_finish_written (hu : u.err = false) (hcode : u.errCode = s.errCode) (hout : u.hostOut = s.hostOut)
    (h : exec i s = .next (finish v u)) : Completes i s u v := by
  rw [Completes, h, finish, State.respond, hu, hcode, hout]

theorem raises_gfNotReady {b : Byte} (he : s.err = false) (hr : s.gfReady = false) (h : exec i s = gfValue s b) :
    Raises i s .gfNotReady := by
  rw [raises_iff, h, gfValue, unlessHalted_running _ he, require_fails (by simp [hr])]

end Sys2Proof.Machine

namespace Sys2Proof

open Machine

/-- Settles O28: the value command of the table's entry. -/
theorem gfInvReturnsEntry : Obligations.GfInvReturnsEntry :=
  fun _ _ he hr => completes_of_gfValue he hr rfl

/-- Settles O29: the five commands share the check of GF_READY. -/
theorem gfNotReadyRaised : Obligations.GfNotReadyRaised :=
  fun _ _ _ he hr => ⟨raises_gfNotReady he hr rfl, raises_gfNotReady he hr rfl, raises_gfNotReady he hr rfl,
    raises_gfNotReady he hr rfl, raises_gfNotReady he hr rfl⟩

/-- Settles O30: the table that is built is the listed one, and GF_NEW makes no check. -/
theorem gfNewBuildsListedTable : Obligations.GfNewBuildsListedTable := by
  intro s he
  rw [← buildInv_eq_invTable]
  exact completes_of_finish_written he rfl rfl (unlessHalted_running _ he)

end Sys2Proof
end

section
/-! The port and the fault record (spec/30_encoding.md R56, spec/43_system.md R126, R128, spec/60_exceptions.md R132): what a
step takes from the port, what it answers, and what no command writes. -/

namespace Sys2Proof.Machine

variable {i : Instr} {s t u : State} {v : Value} {w : Word} {rest : List HostEvent}

/-! ### The fields of a response word (R56) -/

section
variable (err : Bool) (code : BitVec 4) (v : Value)

theorem responseWord_err : (responseWord err code v).getLsbD 31 = err := by
  simp only [responseWord, BitVec.getLsbD_append]
  simp

theorem responseWord_reserved_high : (responseWord err code v).extractLsb' 28 3 = 0#3 := by
  rw [responseWord]
  iterate 3 rw [BitVec.extractLsb'_append_eq_of_le (by decide)]
  exact BitVec.extractLsb'_append_eq_right

theorem responseWord_code : (responseWord err code v).extractLsb' 24 4 = code := by
  rw [responseWord]
  iterate 2 rw [BitVec.extractLsb'_append_eq_of_le (by decide)]
  exact BitVec.extractLsb'_append_eq_right

theorem responseWord_reserved_low : (responseWord err code v).extractLsb' 17 7 = 0#7 := by
  rw [responseWord, BitVec.extractLsb'_append_eq_of_le (by decide)]
  exact BitVec.extractLsb'_append_eq_right

theorem responseWord_value : (responseWord err code v).extractLsb' 0 17 = v := by
  rw [responseWord]
  exact BitVec.extractLsb'_append_eq_right

end

/-! ### What no command's rule writes (R126) -/

/-- The parameters, the fault record and the port of `u` are those of `s`. -/
structure KeepsPort (s u : State) : Prop where
  cfg : u.cfg = s.cfg
  err : u.err = s.err
  errCode : u.errCode = s.errCode
  hostIn : u.hostIn = s.hostIn
  hostOut : u.hostOut = s.hostOut

/-- The response is given, and a fault taken, outside the command's own writes. -/
theorem Effect.keepsPort (e : Effect i s u v) : KeepsPort s u := by
  cases i with
  | sysStatus => cases e
  | gfNew =>
    obtain ⟨rfl, -⟩ := e
    exact ⟨rfl, rfl, rfl, rfl, rfl⟩
  | gfAdd | gfSub | gfMul | gfDiv | gfInv | baSize =>
    obtain ⟨-, rfl, -⟩ := e
    exact ⟨rfl, rfl, rfl, rfl, rfl⟩
  | baNewBytes | baNewCount | baNewStr | itBegin =>
    obtain ⟨-, -, rfl⟩ := e
    exact ⟨rfl, rfl, rfl, rfl, rfl⟩
  | baGet | baXor | itAtEnd =>
    obtain ⟨-, -, rfl, -⟩ := e
    exact ⟨rfl, rfl, rfl, rfl, rfl⟩
  | baPushByte | baPushChar =>
    obtain ⟨-, -, -, rfl⟩ := e
    exact ⟨rfl, rfl, rfl, rfl, rfl⟩
  | itGet | itXor =>
    obtain ⟨-, -, -, rfl, -⟩ := e
    exact ⟨rfl, rfl, rfl, rfl, rfl⟩
  | baSet | itNext =>
    obtain ⟨-, -, -, -, rfl⟩ := e
    exact ⟨rfl, rfl, rfl, rfl, rfl⟩
  | itSet =>
    obtain ⟨-, -, -, -, -, rfl⟩ := e
    exact ⟨rfl, rfl, rfl, rfl, rfl⟩

/-! ### The response of a command -/

/-- `t` is after `s` by one response, which carries ERR and ERR_CODE as they are in `t`; `zero` says when VALUE has to be
0. -/
structure RespondsOnce (zero : Prop) (s t : State) : Prop where
  cfg : t.cfg = s.cfg
  hostIn : t.hostIn = s.hostIn
  hostOut : ∃ v, t.hostOut = s.hostOut ++ [responseWord t.err t.errCode v] ∧ (t.err = true → zero → v = 0#17)

theorem respondsOnce_dropCommand (zero : Prop) (s : State) : RespondsOnce zero s (dropCommand s) :=
  ⟨rfl, rfl, 0#17, rfl, fun _ _ => rfl⟩

theorem respondsOnce_takeFault (zero : Prop) (c : ErrCode) (s : State) : RespondsOnce zero s (takeFault c s) :=
  ⟨rfl, rfl, 0#17, rfl, fun _ _ => rfl⟩

/-- Only SYS_STATUS answers a value while ERR = 1. -/
theorem Ends.respondsOnce (h : Ends i s t) : RespondsOnce (i ≠ .sysStatus) s t := by
  cases h with
  | dropped _ _ eq => exact eq ▸ respondsOnce_dropCommand _ s
  | status is eq =>
    subst eq
    exact ⟨rfl, rfl, s.status, rfl, fun _ hne => absurd is hne⟩
  | raised _ _ c eq => exact eq ▸ respondsOnce_takeFault _ c s
  | completed running _ u v effect eq =>
    subst eq
    have hk := effect.keepsPort
    refine ⟨hk.cfg, hk.hostIn, v, by rw [finish_hostOut, hk.hostOut]; rfl, fun herr _ => ?_⟩
    rw [finish_err, hk.err, running] at herr
    cases herr

theorem step_respondsOnce (hin : s.hostIn = .cmd w :: rest) (h : step s = .next t) :
    RespondsOnce (decode w ≠ .ok .sysStatus) { s with hostIn := rest } t := by
  cases hd : decode w with
  | ok i =>
    rw [step_command hin hd] at h
    simpa using (exec_cases h).respondsOnce
  | error e =>
    rw [step_illegal hin hd] at h
    rcases unlessHalted_next h with ⟨-, rfl⟩ | ⟨-, h⟩
    · exact respondsOnce_dropCommand _ _
    · cases h
      exact respondsOnce_takeFault _ _ _

/-! ### A command that executes leaves its value in RES (R20) -/

theorem Ends.res_of_executed (h : Ends i s t) (he : s.err = false) (hne : i ≠ .sysStatus) (ht : t.err = false) :
    t.errCode = s.errCode ∧ t.hostOut = s.hostOut ++ [responseWord false s.errCode t.res] := by
  cases h with
  | dropped halted => simp [he] at halted
  | status is => exact absurd is hne
  | raised _ _ c eq => simp [eq] at ht
  | completed _ _ u v effect eq =>
    subst eq
    have hk := effect.keepsPort
    refine ⟨hk.errCode, ?_⟩
    rw [finish_hostOut, finish_res, hk.hostOut, hk.err, hk.errCode, he]

/-! ### The halted state (R132) -/

/-- `t` is `s` but for the port. -/
def SameButPort (s t : State) : Prop := t = { s with hostIn := t.hostIn, hostOut := t.hostOut }

theorem Ends.sameButPort (h : Ends i s t) (he : s.err = true) : SameButPort s t := by
  cases h with
  | dropped _ _ eq | status _ eq => exact eq ▸ rfl
  | raised running | completed running => simp [he] at running

theorem step_halted_sameButPort (he : s.err = true) (hrst : ∀ rest, s.hostIn ≠ .rst :: rest) (h : step s = .next t) :
    SameButPort s t := by
  rcases step_cases h with ⟨-, rfl⟩ | ⟨rest, hin, -⟩ | ⟨w, rest, i, -, -, hends⟩ | ⟨w, rest, e, -, -, hends⟩
  · rfl
  · exact absurd hin (hrst rest)
  · have ht : SameButPort { s with hostIn := rest } t := hends.sameButPort he
    exact ht
  · rcases hends with ⟨-, rfl⟩ | ⟨running, -⟩
    · rfl
    · simp [he] at running

theorem step_cfg (h : step s = .next t) : t.cfg = s.cfg := by
  rcases step_cases h with ⟨-, rfl⟩ | ⟨rest, -, rfl⟩ | ⟨w, rest, i, hin, -, -⟩ | ⟨w, rest, e, hin, -, -⟩
  · rfl
  · rfl
  · exact (step_respondsOnce hin h).cfg
  · exact (step_respondsOnce hin h).cfg

end Sys2Proof.Machine

namespace Sys2Proof

open Machine

/-- Settles O7: the decoding branch of the step. -/
theorem stepRunsDecodedCommand : Obligations.StepRunsDecodedCommand := fun _ _ _ _ => step_command

/-- Settles O8: the running engine takes the fault, and 0x81000000 is its response. -/
theorem illegalWordRaisesIllegal : Obligations.IllegalWordRaisesIllegal := by
  intro s w rest e hin hd he
  have hresponse : responseWord true ErrCode.illegal.code 0#17 = 0x81000000#32 := by decide
  rw [← hresponse]
  exact (step_illegal hin hd).trans (execIllegal_running he)

/-- Settles O10: a reset takes the port from the state before it. -/
theorem resetEventKeepsPort : Obligations.ResetEventKeepsPort :=
  fun _ _ hin => ⟨_, step_rst hin, rfl, rfl⟩

/-- Settles O11: the idle branch of the step. -/
theorem idlePortChangesNothing : Obligations.IdlePortChangesNothing := by
  intro s hin
  rw [step, hin]
  rfl

/-- Settles O13: however a command word ends, it ends in one response. -/
theorem oneResponsePerCommand : Obligations.OneResponsePerCommand := by
  intro s t w rest hin h
  have hr := step_respondsOnce hin h
  exact ⟨hr.hostIn, hr.hostOut⟩

/-- Settles O14: field by field. -/
theorem responseWordFields : Obligations.ResponseWordFields :=
  fun err code v => ⟨responseWord_err err code v, responseWord_reserved_high err code v, responseWord_code err code v,
    responseWord_reserved_low err code v, responseWord_value err code v⟩

/-- Settles O15: only the port and the engine's own registers change. -/
theorem parametersNeverChange : Obligations.ParametersNeverChange := fun _ _ => step_cfg

/-- Settles O20: a command that ends with ERR = 0 on a running engine has completed. -/
theorem resHoldsResponseValue : Obligations.ResHoldsResponseValue :=
  fun _ _ _ he hne h ht => (exec_cases h).res_of_executed he hne ht

/-- Settles O22: a halted engine only drops a word or answers STATUS. -/
theorem haltedStateIsFrozen : Obligations.HaltedStateIsFrozen := fun _ _ => step_halted_sameButPort

/-- Settles O23: by evaluation. -/
theorem faultCodeNumbers : Obligations.FaultCodeNumbers := ⟨rfl, rfl, rfl, rfl, rfl, rfl, rfl, rfl⟩

end Sys2Proof
end

section
/-! The invariant of spec/10_state.md R27: it holds at reset, every command's own writes keep it, and so does every step;
and from a state that meets it every step has a next state (spec/43_system.md R126). -/

namespace Sys2Proof.Machine

variable {i : Instr} {s t u : State} {v : Value}

/-! ### At reset (R150) -/

theorem inv_resetWith (cfg : Config) : Inv (State.resetWith cfg) where
  alloc_le_cap := Nat.zero_le _
  size_le_alloc := Nat.le_refl 0
  none_empty := fun _ => ⟨rfl, rfl, rfl⟩
  sizes := fun h => absurd rfl h
  load_bytes := nofun
  load_str := nofun
  iterator := nofun
  no_fault := fun _ => rfl
  fault_code := nofun
  table := nofun
  bits_backed := fun _ hi => absurd hi (Nat.not_lt_zero _)
  store_wf := rfl
  store_bounded := fun _ _ => rfl

/-- What is at the port does not matter. -/
theorem Inv.withPort (hi : Inv s) (inp : List HostEvent) (out : List Word) :
    Inv { s with hostIn := inp, hostOut := out } :=
  hi.of_record s.err s.errCode s.res inp out (.inl ⟨rfl, rfl⟩)

/-! ### The commands' own writes -/

/-- What `construct` requires of its arguments: the array fits, and the three counts are those of one of the variants
(R90, R92, R93). -/
structure Constructible (cap alloc bits len : Nat) (st : BaState) : Prop where
  alloc_le : alloc ≤ cap
  sizes : bits = 8 * alloc ∨ alloc = bits / 8 + 1
  not_none : st ≠ .none
  load_bytes : st = .loadBytes → 0 < len ∧ len = alloc ∧ bits = 8 * alloc
  load_str : st = .loadStr → 0 < len ∧ len = bits ∧ alloc = bits / 8 + 1
  len_lt : len < 65536

theorem Inv.construct {alloc bits len : Nat} {st : BaState} (hi : Inv s)
    (hc : Constructible s.cfg.baCapBytes alloc bits len st) : Inv (construct alloc bits len st s) := by
  have hcap := s.cfg.cap_le
  have hfit := hc.alloc_le
  have hsizes := hc.sizes
  have ha : (BitVec.ofNat 14 alloc).toNat = alloc := Nat.mod_eq_of_lt (by omega)
  have hb : (BitVec.ofNat 17 bits).toNat = bits := Nat.mod_eq_of_lt (by omega)
  have hl : (BitVec.ofNat 16 len).toNat = len := Nat.mod_eq_of_lt hc.len_lt
  constructor <;> simp only [construct_cfg, construct_allocBytes, construct_dataSize, construct_baState, construct_loadPtr,
    construct_loadLen, construct_itValid, construct_err, construct_errCode, construct_gfReady, construct_inv,
    construct_store, ha, hb, hl]
  case alloc_le_cap => exact hfit
  case size_le_alloc => omega
  case none_empty => exact fun h => absurd h hc.not_none
  case sizes => exact fun _ => hsizes
  case load_bytes => exact fun h => ⟨(hc.load_bytes h).1, trivial, (hc.load_bytes h).2⟩
  case load_str => exact fun h => ⟨(hc.load_str h).1, trivial, (hc.load_str h).2⟩
  case iterator => nofun
  case no_fault => exact hi.no_fault
  case fault_code => exact hi.fault_code
  case table => exact hi.table
  case bits_backed => omega
  case store_wf => rfl
  case store_bounded => exact fun _ _ => rfl

/-- The test of R90 and R93 for an empty array, on the operand or on its value. -/
theorem eq_zero_iff_toNat (n : BitVec 16) : n = 0#16 ↔ n.toNat = 0 := BitVec.toNat_inj.symm

theorem constructible_bytes {cap : Nat} {n : BitVec 16} (h : n.toNat ≤ cap) :
    Constructible cap n.toNat (8 * n.toNat) n.toNat (if n = 0#16 then .ready else .loadBytes) := by
  simp only [eq_zero_iff_toNat]
  refine ⟨h, .inl rfl, ?_, ?_, ?_, n.isLt⟩ <;> split <;> simp
  omega

theorem constructible_count {cap : Nat} {n : BitVec 16} (h : countedBytes n ≤ cap) :
    Constructible cap (countedBytes n) n.toNat 0 .ready :=
  ⟨h, .inr rfl, nofun, nofun, nofun, by decide⟩

theorem constructible_str {cap : Nat} {n : BitVec 16} (h : countedBytes n ≤ cap) :
    Constructible cap (countedBytes n) n.toNat n.toNat (if n = 0#16 then .ready else .loadStr) := by
  simp only [eq_zero_iff_toNat]
  refine ⟨h, .inr rfl, ?_, ?_, ?_, n.isLt⟩ <;> split <;> simp [countedBytes]
  omega

/-- While a construction is in progress the count of elements stays below the number expected. -/
theorem Inv.loadPtr_lt (hi : Inv s) (hs : s.baState = .loadBytes ∨ s.baState = .loadStr) :
    s.loadPtr.toNat < s.loadLen.toNat := by
  rcases hs with hs | hs
  · exact (hi.load_bytes hs).1
  · exact (hi.load_str hs).1

theorem toNat_loadPtr_succ (h : s.loadPtr.toNat < s.loadLen.toNat) : (s.loadPtr + 1#16).toNat = s.loadPtr.toNat + 1 :=
  BitVec.toNat_add_of_lt (by have := s.loadLen.isLt; simp; omega)

/-- R91, R94: the last element expected is the one after which the counts agree. -/
theorem loadPtr_succ_eq_iff (h : s.loadPtr.toNat < s.loadLen.toNat) :
    s.loadPtr + 1#16 = s.loadLen ↔ s.loadPtr.toNat + 1 = s.loadLen.toNat := by
  rw [← BitVec.toNat_inj, toNat_loadPtr_succ h]

theorem Inv.advanceLoad (hi : Inv s) (hs : s.baState = .loadBytes ∨ s.baState = .loadStr) : Inv (advanceLoad s) := by
  have hlt := hi.loadPtr_lt hs
  have hnone : s.baState ≠ .none := by rcases hs with hs | hs <;> simp [hs]
  have hvalid : s.itValid = false := by
    rcases hs with hs | hs
    · exact (hi.load_bytes hs).2.1
    · exact (hi.load_str hs).2.1
  constructor <;> simp only [advanceLoad_cfg, advanceLoad_allocBytes, advanceLoad_dataSize, advanceLoad_baState,
    advanceLoad_loadPtr, advanceLoad_loadLen, advanceLoad_itValid, advanceLoad_err, advanceLoad_errCode,
    advanceLoad_gfReady, advanceLoad_inv, advanceLoad_store, loadPtr_succ_eq_iff hlt, toNat_loadPtr_succ hlt]
  case alloc_le_cap => exact hi.alloc_le_cap
  case size_le_alloc => exact hi.size_le_alloc
  case none_empty => split <;> simp [hnone]
  case sizes => exact fun _ => hi.sizes hnone
  case load_bytes =>
    split
    · nofun
    · intro h
      obtain ⟨-, hrest⟩ := hi.load_bytes h
      exact ⟨by omega, hrest⟩
  case load_str =>
    split
    · nofun
    · intro h
      obtain ⟨-, hrest⟩ := hi.load_str h
      exact ⟨by omega, hrest⟩
  case iterator => simp [hvalid]
  case no_fault => exact hi.no_fault
  case fault_code => exact hi.fault_code
  case table => exact hi.table
  case bits_backed => exact hi.bits_backed
  case store_wf => exact hi.store_wf
  case store_bounded => exact hi.store_bounded

/-- A valid iterator on a READY array, at End() or before it. -/
theorem Inv.withIterator (hi : Inv s) (hs : s.baState = .ready) {k : BitVec 14} {o : BitVec 3}
    (hle : 8 * k.toNat + o.toNat ≤ s.dataSize.toNat) : Inv { s with itByte := k, itOff := o, itValid := true } :=
  { hi with
    none_empty := fun h => nomatch hs.symm.trans h
    load_bytes := fun h => nomatch hs.symm.trans h
    load_str := fun h => nomatch hs.symm.trans h
    iterator := fun _ => ⟨hs, hle⟩ }

/-- For any table `T`, so that no comparison of states has to look into how the table was built. -/
theorem Inv.withTable (hi : Inv s) {T : Vector Byte 256} (hT : T = invTable) : Inv { s with inv := T, gfReady := true } :=
  { hi with table := fun _ => hT }

theorem Effect.inv (hi : Inv s) (e : Effect i s u v) : Inv u := by
  cases i with
  | sysStatus => cases e
  | gfNew =>
    obtain ⟨rfl, -⟩ := e
    exact hi.withTable buildInv_eq_invTable
  | gfAdd | gfSub | gfMul | gfDiv | gfInv | baSize =>
    obtain ⟨-, rfl, -⟩ := e
    exact hi
  | baGet | baXor | itAtEnd =>
    obtain ⟨-, -, rfl, -⟩ := e
    exact hi
  | itGet | itXor =>
    obtain ⟨-, -, -, rfl, -⟩ := e
    exact hi
  | baNewBytes =>
    obtain ⟨hfit, -, rfl⟩ := e
    exact hi.construct (constructible_bytes hfit)
  | baNewCount =>
    obtain ⟨hfit, -, rfl⟩ := e
    exact hi.construct (constructible_count hfit)
  | baNewStr =>
    obtain ⟨hfit, -, rfl⟩ := e
    exact hi.construct (constructible_str hfit)
  | baPushByte =>
    obtain ⟨hs, -, hk, rfl⟩ := e
    exact (hi.of_write _ _ hk).advanceLoad (.inl hs)
  | baPushChar =>
    obtain ⟨hs, -, hk, rfl⟩ := e
    exact (hi.of_write _ _ hk).advanceLoad (.inr hs)
  | baSet =>
    obtain ⟨-, -, -, hk, rfl⟩ := e
    exact hi.of_write _ _ hk
  | itSet =>
    obtain ⟨-, -, -, -, hk, rfl⟩ := e
    exact hi.of_write _ _ hk
  | itBegin =>
    obtain ⟨hs, -, rfl⟩ := e
    exact hi.withIterator hs (Nat.zero_le _)
  | itNext =>
    obtain ⟨hs, hv, hne, -, rfl⟩ := e
    have hle := (hi.iterator hv).2
    have hstep := advanceIterator_itIndex (hi.itByte_le hv)
    have hnext : Inv { s with itByte := (advanceIterator s).itByte, itOff := (advanceIterator s).itOff, itValid := true } :=
      hi.withIterator hs (by rw [← State.itIndex]; omega)
    rwa [← hv] at hnext

/-! ### The step (R27) -/

theorem Ends.inv (hi : Inv s) (h : Ends i s t) : Inv t := by
  cases h with
  | dropped _ _ eq | status _ eq => exact eq ▸ hi.withPort _ _
  | raised _ _ c eq => exact eq ▸ hi.of_record true c.code s.res s.hostIn _ (.inr ⟨rfl, code_range c⟩)
  | completed _ _ u v effect eq =>
    exact eq ▸ (effect.inv hi).of_record u.err u.errCode v u.hostIn _ (.inl ⟨rfl, rfl⟩)

theorem Inv.step (hi : Inv s) (h : step s = .next t) : Inv t := by
  rcases step_cases h with ⟨-, rfl⟩ | ⟨rest, -, rfl⟩ | ⟨w, rest, i, -, -, hends⟩ | ⟨w, rest, e, -, -, ⟨-, rfl⟩ | ⟨-, rfl⟩⟩
  · exact hi
  · exact (inv_resetWith s.cfg).withPort _ _
  · exact hends.inv (hi.withPort _ _)
  · exact hi.withPort _ _
  · exact hi.of_record true _ s.res rest _ (.inr ⟨rfl, code_range _⟩)

/-! ### Totality (R126) -/

/-- The command ends in a next state. -/
def HasNext (k : Result) : Prop := ∃ t, k = .next t

theorem hasNext_unlessHalted {k : Result} (h : HasNext k) : HasNext (unlessHalted s k) := by
  cases he : s.err
  · rwa [unlessHalted_running k he]
  · exact ⟨_, unlessHalted_halted k he⟩

theorem hasNext_require {p : Prop} [Decidable p] {c : ErrCode} {k : Result} (h : p → HasNext k) :
    HasNext (require p c s k) := by
  by_cases hp : p
  · rw [require_holds hp]
    exact h hp
  · exact ⟨_, require_fails hp⟩

theorem hasNext_andThen {α : Type} {x : Except Fault α} {a : α} {f : α → State} (h : x = .ok a) :
    HasNext (andThen x fun a => .next (f a)) := by
  rw [h]
  exact ⟨_, rfl⟩

theorem hasNext_gfValue (b : Byte) : HasNext (gfValue s b) :=
  hasNext_unlessHalted (hasNext_require fun _ => ⟨_, rfl⟩)

theorem hasNext_indexed {n : BitVec 16} {k : Result} (h : n.toNat < s.dataSize.toNat → HasNext k) :
    HasNext (indexed n s k) :=
  hasNext_unlessHalted (hasNext_require fun _ => hasNext_require h)

theorem hasNext_withIterator {k : Result} (h : HasNext k) : HasNext (withIterator s k) :=
  hasNext_unlessHalted (hasNext_require fun _ => hasNext_require fun _ => h)

theorem hasNext_atIterator {k : Result} (h : s.itIndex < s.dataSize.toNat → HasNext k) : HasNext (atIterator s k) :=
  hasNext_withIterator (hasNext_require h)

/-- Every byte of a construction in progress exists. -/
theorem Inv.loadPtr_lt_alloc (hi : Inv s) (hs : s.baState = .loadBytes) : s.loadPtr.toNat < s.allocBytes.toNat := by
  obtain ⟨hlt, -, hlen, -⟩ := hi.load_bytes hs
  omega

theorem Inv.loadPtr_lt_dataSize (hi : Inv s) (hs : s.baState = .loadStr) : s.loadPtr.toNat < s.dataSize.toNat := by
  obtain ⟨hlt, -, hlen, -⟩ := hi.load_str hs
  omega

/-- Under the invariant every byte and bit that a command accesses exists (R35). -/
theorem Inv.hasNext_exec (hi : Inv s) (i : Instr) : HasNext (exec i s) := by
  have hread : ∀ {n}, n < s.dataSize.toNat → bitRead s (bitRefOf n) = .ok (s.bitAt n) := fun hn =>
    bitRead_bitRefOf (hi.bits_backed _ hn)
  cases i with
  | sysStatus => exact ⟨_, rfl⟩
  | gfNew => exact hasNext_unlessHalted ⟨_, rfl⟩
  | gfAdd | gfSub | gfMul | gfDiv | gfInv => exact hasNext_gfValue _
  | baNewBytes | baNewCount | baNewStr | baSize | itBegin =>
    exact hasNext_unlessHalted (hasNext_require fun _ => ⟨_, rfl⟩)
  | baPushByte d =>
    exact hasNext_unlessHalted (hasNext_require fun hs => hasNext_andThen (memWrite_ok d (hi.loadPtr_lt_alloc hs)))
  | baPushChar d =>
    exact hasNext_unlessHalted (hasNext_require fun hs =>
      hasNext_andThen (bitWrite_bitRefOf _ (hi.bits_backed _ (hi.loadPtr_lt_dataSize hs))))
  | baGet | baXor => exact hasNext_indexed fun hn => hasNext_andThen (hread hn)
  | baSet n b => exact hasNext_indexed fun hn => hasNext_andThen (bitWrite_bitRefOf b (hi.bits_backed _ hn))
  | itNext => exact hasNext_withIterator (hasNext_require fun _ => ⟨_, rfl⟩)
  | itGet | itXor =>
    refine hasNext_atIterator fun hn => ?_
    rw [itPos_eq]
    exact hasNext_andThen (hread hn)
  | itSet b =>
    refine hasNext_atIterator fun hn => ?_
    rw [itPos_eq]
    exact hasNext_andThen (bitWrite_bitRefOf b (hi.bits_backed _ hn))
  | itAtEnd => exact hasNext_withIterator ⟨_, rfl⟩

theorem Inv.hasNext_step (hi : Inv s) : HasNext (Machine.step s) := by
  cases hin : s.hostIn with
  | nil => exact ⟨s, by rw [Machine.step, hin]; rfl⟩
  | cons event rest =>
    cases event with
    | rst => exact ⟨_, step_rst hin⟩
    | cmd w =>
      cases hd : decode w with
      | ok i =>
        rw [step_command hin hd]
        exact (hi.withPort rest s.hostOut).hasNext_exec i
      | error e =>
        rw [step_illegal hin hd]
        exact hasNext_unlessHalted ⟨_, rfl⟩

end Sys2Proof.Machine

namespace Sys2Proof

open Machine

/-- Settles O16: command by command, from what each writes. -/
theorem invariantKeptByStep : Obligations.InvariantKeptByStep := fun _ _ => Inv.step

/-- Settles O17: no array and no fault at reset. -/
theorem invariantAtReset : Obligations.InvariantAtReset := ⟨inv_resetWith _, inv_resetWith⟩

/-- Settles O12: no command accesses a byte that does not exist. -/
theorem stepIsTotal : Obligations.StepIsTotal := fun _ => Inv.hasNext_step

end Sys2Proof
end

section
/-! What a command does to STORE and to the sizes (spec/20_memory.md R31, R38, spec/41_bitarray.md R100). -/

namespace Sys2Proof.Machine

variable {i : Instr} {s t u : State} {v : Value}

/-! ### The four ways a command treats the array -/

/-- What command `i` does to STORE, DATA_SIZE and ALLOC_BYTES of `s`, with `u` the state after it. -/
inductive StoreEffect (i : Instr) (s u : State) : Prop where
  /-- Nothing. -/
  | kept (store : u.store = s.store) (size : u.dataSize = s.dataSize) (alloc : u.allocBytes = s.allocBytes)
  /-- A construction: every byte 0 (R90, R92, R93). -/
  | constructed (is : i.isConstruction = true) (store : u.store = [])
  /-- The byte of a variant 1 construction (R91). -/
  | byteWritten (writes : i.writesStore = true) (loading : s.baState = .loadBytes) (d : Byte)
      (store : u.store = s.store.write s.loadPtr.toNat d) (size : u.dataSize = s.dataSize)
      (alloc : u.allocBytes = s.allocBytes)
  /-- One bit, of the array or of a variant 3 construction (R94, R96, R113). -/
  | bitWritten (writes : i.writesStore = true) (n : Nat) (b : Bool)
      (bit : n < s.dataSize.toNat ∨ s.baState = .loadStr ∧ n = s.loadPtr.toNat)
      (store : u.store = s.store.write (n / 8) (writtenByte s (bitRefOf n) b)) (size : u.dataSize = s.dataSize)
      (alloc : u.allocBytes = s.allocBytes)

theorem Effect.storeEffect (e : Effect i s u v) : StoreEffect i s u := by
  cases i with
  | sysStatus => cases e
  | gfNew =>
    obtain ⟨rfl, -⟩ := e
    exact .kept rfl rfl rfl
  | gfAdd | gfSub | gfMul | gfDiv | gfInv | baSize =>
    obtain ⟨-, rfl, -⟩ := e
    exact .kept rfl rfl rfl
  | itBegin =>
    obtain ⟨-, -, rfl⟩ := e
    exact .kept rfl rfl rfl
  | baGet | baXor | itAtEnd =>
    obtain ⟨-, -, rfl, -⟩ := e
    exact .kept rfl rfl rfl
  | itGet | itXor =>
    obtain ⟨-, -, -, rfl, -⟩ := e
    exact .kept rfl rfl rfl
  | itNext =>
    obtain ⟨-, -, -, -, rfl⟩ := e
    exact .kept rfl rfl rfl
  | baNewBytes | baNewCount | baNewStr =>
    obtain ⟨-, -, rfl⟩ := e
    exact .constructed rfl rfl
  | baPushByte d =>
    obtain ⟨hs, -, -, rfl⟩ := e
    exact .byteWritten rfl hs d rfl rfl rfl
  | baPushChar =>
    obtain ⟨hs, -, -, rfl⟩ := e
    exact .bitWritten rfl _ _ (.inr ⟨hs, rfl⟩) rfl rfl rfl
  | baSet =>
    obtain ⟨-, hn, -, -, rfl⟩ := e
    exact .bitWritten rfl _ _ (.inl hn) rfl rfl rfl
  | itSet =>
    obtain ⟨-, -, hn, -, -, rfl⟩ := e
    exact .bitWritten rfl _ _ (.inl hn) rfl rfl rfl

/-- Dropped, answering STATUS or raising a fault a command leaves the array. -/
theorem Ends.storeEffect (h : Ends i s t) : StoreEffect i s t := by
  cases h with
  | dropped _ _ eq | status _ eq | raised _ _ _ eq =>
    subst eq
    exact .kept rfl rfl rfl
  | completed _ _ u v effect eq =>
    subst eq
    cases effect.storeEffect with
    | kept store size alloc => exact .kept store size alloc
    | constructed is store => exact .constructed is store
    | byteWritten writes loading d store size alloc => exact .byteWritten writes loading d store size alloc
    | bitWritten writes n b bit store size alloc => exact .bitWritten writes n b bit store size alloc

/-! ### Who resizes and who writes (R38, R100) -/

theorem StoreEffect.sizes_eq (h : StoreEffect i s t) (hi : i.isConstruction = false) :
    t.dataSize = s.dataSize ∧ t.allocBytes = s.allocBytes := by
  cases h with
  | kept _ size alloc | byteWritten _ _ _ _ size alloc | bitWritten _ _ _ _ _ size alloc => exact ⟨size, alloc⟩
  | constructed is => simp [hi] at is

theorem writesStore_of_isConstruction (h : i.isConstruction = true) : i.writesStore = true := by
  cases i with
  | baNewBytes | baNewCount | baNewStr => rfl
  | _ => cases h

theorem StoreEffect.store_eq (h : StoreEffect i s t) (hi : i.writesStore = false) : t.store = s.store := by
  cases h with
  | kept store => exact store
  | constructed is => simp [writesStore_of_isConstruction is] at hi
  | byteWritten writes | bitWritten writes => simp [writes] at hi

/-! ### The bits beyond DATA_SIZE (R31) -/

theorem padZero_of_nil (h : s.store = []) : PadZero s := fun i _ => by
  rw [State.bitAt, State.byteAt, h, Memory.read_nil]
  exact BitVec.getLsbD_zero

/-- A byte below DATA_SIZE / 8 may take any value. -/
theorem PadZero.of_byteWrite (hp : PadZero s) (hwf : s.store.wf = true) {k : Nat} (d : Byte)
    (hk : 8 * k + 8 ≤ s.dataSize.toNat) : PadZero { s with store := s.store.write k d } := fun i hi => by
  replace hi : s.dataSize.toNat ≤ i := hi
  rw [State.bitAt, byteAt_write k d _ hwf, if_neg (by omega)]
  exact hp i hi

theorem PadZero.of_bitWrite (hp : PadZero s) (hwf : s.store.wf = true) {n : Nat} (b : Bool)
    (hn : n < s.dataSize.toNat) :
    PadZero { s with store := s.store.write (n / 8) (writtenByte s (bitRefOf n) b) } := fun i hi => by
  replace hi : s.dataSize.toNat ≤ i := hi
  rw [bitAt_bitWrite n b i hwf, if_neg (by omega)]
  exact hp i hi

/-- No command writes at or beyond DATA_SIZE: the byte of a variant 1 construction is one of DATA_SIZE / 8, and a bit that is
written is below DATA_SIZE. -/
theorem StoreEffect.padZero (hi : Inv s) (hp : PadZero s) (h : StoreEffect i s t) : PadZero t := by
  cases h with
  | kept store size => exact hp.congr store size
  | constructed _ store => exact padZero_of_nil store
  | byteWritten _ loading d store size =>
    have hlt := hi.loadPtr_lt_alloc loading
    obtain ⟨-, -, -, hsize⟩ := hi.load_bytes loading
    exact (hp.of_byteWrite hi.store_wf d (by omega)).congr store size
  | bitWritten _ n b bit store size =>
    have hn : n < s.dataSize.toNat := by
      rcases bit with hn | ⟨loading, rfl⟩
      · exact hn
      · exact hi.loadPtr_lt_dataSize loading
    exact (hp.of_bitWrite hi.store_wf b hn).congr store size

theorem PadZero.step (hi : Inv s) (hp : PadZero s) (h : step s = .next t) : PadZero t := by
  rcases step_cases h with ⟨-, rfl⟩ | ⟨rest, -, rfl⟩ | ⟨w, rest, i, -, -, hends⟩ | ⟨w, rest, e, -, -, ⟨-, rfl⟩ | ⟨-, rfl⟩⟩
  · exact hp
  · exact padZero_of_nil rfl
  · exact hends.storeEffect.padZero (hi.withPort rest s.hostOut) (hp.congr rfl rfl)
  · exact hp.congr rfl rfl
  · exact hp.congr rfl rfl

end Sys2Proof.Machine

namespace Sys2Proof

open Machine

/-- Settles O18: every write to STORE stays below DATA_SIZE. -/
theorem bitsBeyondSizeStayZero : Obligations.BitsBeyondSizeStayZero :=
  ⟨padZero_of_nil rfl, fun _ _ => PadZero.step⟩

/-- Settles O48: the sizes are written by the constructions only. -/
theorem arrayIsNeverResized : Obligations.ArrayIsNeverResized :=
  fun _ _ _ hi h => (exec_cases h).storeEffect.sizes_eq hi

/-- Settles O49: every other command leaves STORE itself. -/
theorem readingCommandsKeepStore : Obligations.ReadingCommandsKeepStore := by
  intro i s t hi h k
  rw [State.byteAt, State.byteAt, (exec_cases h).storeEffect.store_eq hi]

end Sys2Proof
end

section
/-! Construction and indexed access (spec/41_bitarray.md R90 to R98): what each command is when its checks hold, and the
faults when they do not. -/

namespace Sys2Proof.Machine

variable {i : Instr} {s t : State}

/-! ### A check that fails (R130, R134) -/

theorem raises_of_require {p : Prop} [Decidable p] {c : ErrCode} {k : Result} (he : s.err = false) (hp : ¬ p)
    (h : exec i s = unlessHalted s (require p c s k)) : Raises i s c := by
  rw [raises_iff, h, unlessHalted_running _ he, require_fails hp]

/-- All ten commands check BA_STATE first. -/
theorem raises_baNotReady (hi : i.needsArray = true) (he : s.err = false) (hr : s.baState ≠ .ready) :
    Raises i s .baNotReady := by
  cases i with
  | baGet | baSet | baXor | baSize | itBegin | itNext | itGet | itSet | itXor | itAtEnd =>
    exact raises_of_require he hr rfl
  | _ => cases hi

/-! ### Construction (R90, R92, R93) -/

/-- Command `i` completes by making an array of `alloc` zero bytes and `bits` bits, with `len` elements expected. -/
def Constructs (i : Instr) (s : State) (len : BitVec 16) (st : BaState) (alloc bits : Nat) : Prop :=
  ∃ t, exec i s = .next t ∧
    t = { s with store := t.store, allocBytes := t.allocBytes, dataSize := t.dataSize, loadLen := len, loadPtr := 0#16, itValid := false, baState := st, res := 0#17, hostOut := s.hostOut ++ [responseWord false s.errCode 0#17] } ∧
    t.allocBytes.toNat = alloc ∧ t.dataSize.toNat = bits ∧ ∀ k, t.byteAt k = 0x00#8

theorem constructs_of_exec {len : BitVec 16} {st : BaState} {alloc bits : Nat} (he : s.err = false) (ha : alloc < 2 ^ 14)
    (hb : bits < 2 ^ 17) (h : exec i s = .next (finish 0#17 (construct alloc bits len.toNat st s))) :
    Constructs i s len st alloc bits := by
  refine ⟨_, h, ?_, Nat.mod_eq_of_lt ha, Nat.mod_eq_of_lt hb, fun _ => rfl⟩
  rw [finish, State.respond, construct_err, construct_errCode, construct_hostOut, he]
  simp only [construct, BitVec.ofNat_toNat, BitVec.setWidth_eq]

section
variable {n : BitVec 16} (he : s.err = false)
include he

theorem exec_baNewBytes (h : n.toNat ≤ s.cfg.baCapBytes) :
    exec (.baNewBytes n) s = .next (finish 0#17
      (construct n.toNat (8 * n.toNat) n.toNat (if n.toNat = 0 then .ready else .loadBytes) s)) := by
  simp only [← eq_zero_iff_toNat]
  exact (unlessHalted_running _ he).trans (require_holds h)

theorem exec_baNewCount (h : n.toNat / 8 + 1 ≤ s.cfg.baCapBytes) :
    exec (.baNewCount n) s = .next (finish 0#17 (construct (n.toNat / 8 + 1) n.toNat 0 .ready s)) :=
  (unlessHalted_running _ he).trans (require_holds h)

theorem exec_baNewStr (h : n.toNat / 8 + 1 ≤ s.cfg.baCapBytes) :
    exec (.baNewStr n) s = .next (finish 0#17
      (construct (n.toNat / 8 + 1) n.toNat n.toNat (if n.toNat = 0 then .ready else .loadStr) s)) := by
  simp only [← eq_zero_iff_toNat]
  exact (unlessHalted_running _ he).trans (require_holds h)

end

/-! ### The pushes (R91, R94) -/

/-- The state after a push that has made `m` the storage. -/
theorem finish_advanceLoad (he : s.err = false) (hlt : s.loadPtr.toNat < s.loadLen.toNat) (m : Memory) :
    finish 0#17 (advanceLoad { s with store := m }) =
      { s with store := m, loadPtr := s.loadPtr + 1#16, baState := if s.loadPtr.toNat + 1 = s.loadLen.toNat then .ready else s.baState, res := 0#17, hostOut := s.hostOut ++ [responseWord false s.errCode 0#17] } := by
  rw [finish, State.respond, advanceLoad_err, advanceLoad_errCode, advanceLoad_hostOut, he]
  simp only [advanceLoad, loadPtr_succ_eq_iff hlt]

theorem exec_baPushByte (hi : Inv s) (he : s.err = false) (hs : s.baState = .loadBytes) (d : Byte) :
    exec (.baPushByte d) s =
      .next (finish 0#17 (advanceLoad { s with store := s.store.write s.loadPtr.toNat d })) := by
  refine (unlessHalted_running _ he).trans ((require_holds hs).trans ?_)
  rw [memWrite_ok d (hi.loadPtr_lt_alloc hs), andThen_ok]

theorem exec_baPushChar (hi : Inv s) (he : s.err = false) (hs : s.baState = .loadStr) (d : Byte) :
    exec (.baPushChar d) s = .next (finish 0#17 (advanceLoad
      { s with store := s.store.write (s.loadPtr.toNat / 8) (writtenByte s (bitRefOf s.loadPtr.toNat) (d == charOne)) })) := by
  refine (unlessHalted_running _ he).trans ((require_holds hs).trans ?_)
  rw [bitWrite_bitRefOf _ (hi.bits_backed _ (hi.loadPtr_lt_dataSize hs)), andThen_ok]

/-! ### One bit of the array (R34, R95 to R97) -/

/-- From `s` to `t` bit `n` has become `b`, and no other bit and no other byte has changed. -/
def OnlyBitWritten (s t : State) (n : Nat) (b : Bool) : Prop :=
  t.bitAt n = b ∧ (∀ i, i ≠ n → t.bitAt i = s.bitAt i) ∧ ∀ k, k ≠ n / 8 → t.byteAt k = s.byteAt k

theorem onlyBitWritten_of_store (hwf : s.store.wf = true) {n : Nat} {b : Bool}
    (ht : t.store = s.store.write (n / 8) (writtenByte s (bitRefOf n) b)) : OnlyBitWritten s t n b := by
  have hbit : ∀ i, t.bitAt i = if i = n then b else s.bitAt i := fun i => by
    rw [← bitAt_bitWrite n b i hwf, ← ht]
    rfl
  have hbyte : ∀ k, k ≠ n / 8 → t.byteAt k = s.byteAt k := fun k hk => by
    rw [State.byteAt, ht, Memory.read_write_wf _ _ _ _ hwf, if_neg hk]
    rfl
  exact ⟨by rw [hbit, if_pos rfl], fun i hi => by rw [hbit, if_neg hi], hbyte⟩

/-- A command that writes one bit and completes. -/
theorem bitWritten_of_exec (hwf : s.store.wf = true) (he : s.err = false) {n : Nat} {b : Bool}
    (h : exec i s = .next (finish 0#17 { s with store := s.store.write (n / 8) (writtenByte s (bitRefOf n) b) })) :
    ∃ t, exec i s = .next t ∧
      t = { s with store := t.store, res := 0#17, hostOut := s.hostOut ++ [responseWord false s.errCode 0#17] } ∧
      OnlyBitWritten s t n b :=
  ⟨_, h, by rw [finish, State.respond, he], onlyBitWritten_of_store hwf rfl⟩

theorem boolValue_eq (b : Bool) : boolValue b = if b then 1#17 else 0#17 := by
  cases b <;> rfl

/-- A command that reads a bit and completes. -/
theorem completes_of_bit {b : Bool} (he : s.err = false) (h : exec i s = .next (finish (boolValue b) s)) :
    Completes i s s (if b then 1#17 else 0#17) :=
  completes_of_finish he (boolValue_eq b ▸ h)

section
variable {n : BitVec 16} (hi : Inv s) (he : s.err = false) (hr : s.baState = .ready) (hn : n.toNat < s.dataSize.toNat)
include he hr hn

theorem indexed_in_range (k : Result) : indexed n s k = k := by
  rw [indexed_ready k he hr, require_holds hn]

include hi

theorem exec_baGet : exec (.baGet n) s = .next (finish (boolValue (s.bitAt n.toNat)) s) := by
  refine (indexed_in_range he hr hn _).trans ?_
  rw [bitRead_bitRefOf (hi.bits_backed _ hn), andThen_ok]

theorem exec_baXor (v : Bool) : exec (.baXor n v) s = .next (finish (boolValue (s.bitAt n.toNat ^^ v)) s) := by
  refine (indexed_in_range he hr hn _).trans ?_
  rw [bitRead_bitRefOf (hi.bits_backed _ hn), andThen_ok]

theorem exec_baSet (v : Bool) : exec (.baSet n v) s = .next (finish 0#17
    { s with store := s.store.write (n.toNat / 8) (writtenByte s (bitRefOf n.toNat) v) }) := by
  refine (indexed_in_range he hr hn _).trans ?_
  rw [bitWrite_bitRefOf v (hi.bits_backed _ hn), andThen_ok]

end

end Sys2Proof.Machine

namespace Sys2Proof

open Machine

/-- Settles O35: the capacity check holds, and `n` bytes fit the registers. -/
theorem baNewBytesConstructs : Obligations.BaNewBytesConstructs := by
  intro n s he h
  have hcap := s.cfg.cap_le
  exact constructs_of_exec he (by omega) (by omega) (exec_baNewBytes he h)

/-- Settles O36: as O35. -/
theorem baNewCountConstructs : Obligations.BaNewCountConstructs := by
  intro n s he h
  have hcap := s.cfg.cap_le
  exact constructs_of_exec (len := 0#16) he (by omega) (by omega) (exec_baNewCount he h)

/-- Settles O37: as O35. -/
theorem baNewStrConstructs : Obligations.BaNewStrConstructs := by
  intro n s he h
  have hcap := s.cfg.cap_le
  exact constructs_of_exec he (by omega) (by omega) (exec_baNewStr he h)

/-- Settles O38: each construction checks its own byte count. -/
theorem capacityFaultRaised : Obligations.CapacityFaultRaised :=
  fun _ _ he => ⟨fun h => raises_of_require he (Nat.not_le.2 h) rfl, fun h =>
    ⟨raises_of_require he (Nat.not_le.2 h) rfl, raises_of_require he (Nat.not_le.2 h) rfl⟩⟩

/-- Settles O39: LOAD_PTR names a byte of the array, and counting it does not wrap. -/
theorem baPushByteStoresByte : Obligations.BaPushByteStoresByte := by
  intro d s hi he hs
  have hlt := hi.loadPtr_lt (.inl hs)
  have hexec := exec_baPushByte hi he hs d
  rw [finish_advanceLoad he hlt, hs] at hexec
  have hread := fun k => Memory.read_write_wf s.store s.loadPtr.toNat d k hi.store_wf
  exact ⟨_, hexec, rfl, toNat_loadPtr_succ hlt, (hread _).trans (if_pos rfl), fun k hk => (hread k).trans (if_neg hk)⟩

/-- Settles O40: LOAD_PTR names a bit of the array, and counting it does not wrap. -/
theorem baPushCharWritesBit : Obligations.BaPushCharWritesBit := by
  intro d s hi he hs
  have hlt := hi.loadPtr_lt (.inr hs)
  have hexec := exec_baPushChar hi he hs d
  rw [finish_advanceLoad he hlt, hs] at hexec
  exact ⟨_, hexec, rfl, toNat_loadPtr_succ hlt, onlyBitWritten_of_store hi.store_wf rfl⟩

/-- Settles O41: each push checks its own BA_STATE. -/
theorem sequenceFaultRaised : Obligations.SequenceFaultRaised :=
  fun _ _ he => ⟨fun hs => raises_of_require he hs rfl, fun hs => raises_of_require he hs rfl⟩

/-- Settles O42: both commands read the bit of the index. -/
theorem baGetXorReturnBit : Obligations.BaGetXorReturnBit :=
  fun _ v _ hi he hr hn => ⟨completes_of_bit he (exec_baGet hi he hr hn), completes_of_bit he (exec_baXor hi he hr hn v)⟩

/-- Settles O43. -/
theorem baSetWritesOneBit : Obligations.BaSetWritesOneBit :=
  fun _ v _ hi he hr hn => bitWritten_of_exec hi.store_wf he (exec_baSet hi he hr hn v)

/-- Settles O44: only READY is checked. -/
theorem baSizeReturnsDataSize : Obligations.BaSizeReturnsDataSize :=
  fun _ he hr => completes_of_finish he ((unlessHalted_running _ he).trans (require_holds hr))

/-- Settles O45: BA_STATE is the first thing each of the ten commands checks. -/
theorem baNotReadyRaised : Obligations.BaNotReadyRaised := fun _ _ => raises_baNotReady

end Sys2Proof
end

section
/-! The iterator commands (spec/42_iterator.md R110 to R116): what each is when its checks hold, and the faults when they do
not. -/

namespace Sys2Proof.Machine

variable {i : Instr} {s : State}

/-! ### The position -/

/-- The byte of the linear index is IT_BYTE (R116). -/
theorem itIndex_div (s : State) : s.itIndex / 8 = s.itByte.toNat := by
  have := s.itOff.isLt
  unfold State.itIndex
  omega

/-- IT_NEXT leaves the last offset of a byte for the next byte (R111). -/
theorem advanceIterator_itByte_toNat (hb : s.itByte.toNat ≤ 8192) :
    (advanceIterator s).itByte.toNat = if s.itOff.toNat = 7 then s.itByte.toNat + 1 else s.itByte.toNat := by
  have hroll : s.itOff.toNat + 1 = 8 ↔ s.itOff.toNat = 7 := by omega
  rw [advanceIterator_itByte, apply_ite BitVec.toNat, BitVec.toNat_add_of_lt (show s.itByte.toNat + 1 < 2 ^ 14 by omega)]
  simp only [hroll]
  rfl

theorem advanceIterator_itOff_toNat (s : State) :
    (advanceIterator s).itOff.toNat = if s.itOff.toNat = 7 then 0 else s.itOff.toNat + 1 := by
  have hlt := s.itOff.isLt
  have hroll : s.itOff.toNat + 1 = 8 ↔ s.itOff.toNat = 7 := by omega
  rw [advanceIterator_itOff]
  simp only [hroll]
  split
  · rfl
  · exact Nat.mod_eq_of_lt (by omega)

/-! ### The commands -/

section
variable (he : s.err = false) (hr : s.baState = .ready)
include he hr

theorem exec_itBegin : exec .itBegin s = .next (finish 0#17 { s with itByte := 0#14, itOff := 0#3, itValid := true }) :=
  (unlessHalted_running _ he).trans (require_holds hr)

/-- After READY the five commands check IT_VALID (R120, R134). -/
theorem raises_itInvalid (hi : i.needsIterator = true) (hv : s.itValid = false) : Raises i s .itInvalid := by
  have hfault : ∀ k, withIterator s k = .next (takeFault .itInvalid s) := fun k => by
    rw [withIterator, unlessHalted_running _ he, require_holds hr, require_fails (by simp [hv])]
  cases i with
  | itNext | itGet | itSet | itXor | itAtEnd => exact hfault _
  | _ => cases hi

variable (hv : s.itValid = true)
include hv

theorem exec_itNext (hne : s.itIndex ≠ s.dataSize.toNat) : exec .itNext s = .next (finish 0#17 (advanceIterator s)) :=
  (withIterator_valid _ he hr hv).trans (require_holds fun h => hne ((itPos_eq_endPos s).1 h))

theorem raises_itEnd (h : s.itPos = s.endPos) : Raises .itNext s .itEnd :=
  (withIterator_valid _ he hr hv).trans (require_fails (by simp [h]))

variable (hn : s.itIndex < s.dataSize.toNat)
include hn

theorem atIterator_in_range (k : Result) : atIterator s k = k := by
  rw [atIterator, withIterator_valid _ he hr hv, require_holds hn]

variable (hi : Inv s)
include hi

theorem exec_itGet : exec .itGet s = .next (finish (boolValue (s.bitAt s.itIndex)) s) := by
  refine (atIterator_in_range he hr hv hn _).trans ?_
  rw [itPos_eq, bitRead_bitRefOf (hi.bits_backed _ hn), andThen_ok]

theorem exec_itXor (v : Bool) : exec (.itXor v) s = .next (finish (boolValue (s.bitAt s.itIndex ^^ v)) s) := by
  refine (atIterator_in_range he hr hv hn _).trans ?_
  rw [itPos_eq, bitRead_bitRefOf (hi.bits_backed _ hn), andThen_ok]

theorem exec_itSet (v : Bool) : exec (.itSet v) s = .next (finish 0#17
    { s with store := s.store.write (s.itIndex / 8) (writtenByte s (bitRefOf s.itIndex) v) }) := by
  refine (atIterator_in_range he hr hv hn _).trans ?_
  rw [itPos_eq, bitWrite_bitRefOf v (hi.bits_backed _ hn), andThen_ok]

end

end Sys2Proof.Machine

namespace Sys2Proof

open Machine

/-- Settles O50: only READY is checked. -/
theorem itBeginStartsAtZero : Obligations.ItBeginStartsAtZero :=
  fun _ he hr => completes_of_finish_written he rfl rfl (exec_itBegin he hr)

/-- Settles O51: a valid iterator is far from where IT_BYTE would wrap. -/
theorem itNextAdvancesOneBit : Obligations.ItNextAdvancesOneBit := by
  intro s hi he hr hv hne
  have hb := hi.itByte_le hv
  exact ⟨_, exec_itNext he hr hv hne, by rw [finish, State.respond, advanceIterator_err, he]; rfl,
    advanceIterator_itIndex hb, advanceIterator_itByte_toNat hb, advanceIterator_itOff_toNat s⟩

/-- Settles O52: both commands read the bit of the linear index. -/
theorem itGetXorReturnBit : Obligations.ItGetXorReturnBit :=
  fun v _ hi he hr hv hn =>
    ⟨completes_of_bit he (exec_itGet he hr hv hn hi), completes_of_bit he (exec_itXor he hr hv hn hi v)⟩

/-- Settles O53: IT_BYTE is the byte of the linear index. -/
theorem itSetWritesOneBit : Obligations.ItSetWritesOneBit := by
  intro v s hi he hr hv hn
  rw [← itIndex_div]
  exact bitWritten_of_exec hi.store_wf he (exec_itSet he hr hv hn hi v)

/-- Settles O55: IT_VALID is checked before anything of the command's own. -/
theorem itInvalidRaised : Obligations.ItInvalidRaised := fun _ _ hi he hr hv => raises_itInvalid he hr hi hv

/-- Settles O56: the two components make the position End(). -/
theorem itEndFaultRaised : Obligations.ItEndFaultRaised :=
  fun s he hr hv hbyte hoff => raises_itEnd he hr hv ((itPos_eq_endPos_iff_components s).2 ⟨hbyte, hoff⟩)

end Sys2Proof
end

section
/-! The constructions as sequences of commands (spec/30_encoding.md R59, spec/41_bitarray.md R91, R102): BA_BYTES and
BA_STR push one element after the other, so one induction over the elements serves both. -/

namespace Sys2Proof.Machine

variable {α : Type} {push : Byte → Instr} {loading : BaState} {cell : Memory → Nat → α} {val : Byte → α}
variable {i : Instr} {s t : State}

theorem Inv.exec (hi : Inv s) (h : exec i s = .next t) : Inv t := (exec_cases h).inv hi

/-! ### Running the commands at the port (R126, R128) -/

theorem coreRun_succ {M : Host.Core} {s t : M.State} {n : Nat} (h : M.step s = .next t) : M.run (n + 1) s = M.run n t := by
  rw [Host.Core.run, h]

theorem run_succ {n : Nat} (h : step s = .next t) : core.run (n + 1) s = core.run n t := coreRun_succ (M := core) h

/-- The command words of `cs`, as the host gives them. -/
def commandWords (cs : List Instr) : List HostEvent := cs.map fun i => .cmd (encode i)

theorem step_commandWords {cs : List Instr} (hin : s.hostIn = commandWords (i :: cs)) :
    step s = exec i { s with hostIn := commandWords cs } :=
  step_command hin (decode_encode i)

/-! ### Pushing the elements (R91, R94) -/

/-- What a push does to the registers; `loading` is the BA_STATE of the construction in progress. -/
structure CountsElement (loading : BaState) (s t : State) : Prop where
  err : t.err = s.err
  hostIn : t.hostIn = s.hostIn
  dataSize : t.dataSize = s.dataSize
  allocBytes : t.allocBytes = s.allocBytes
  loadLen : t.loadLen = s.loadLen
  loadPtr : t.loadPtr.toNat = s.loadPtr.toNat + 1
  baState : t.baState = if s.loadPtr.toNat + 1 = s.loadLen.toNat then .ready else loading

/-- `push d` makes the cell of STORE at LOAD_PTR hold `val d` and leaves every other cell. -/
def StoresElement (push : Byte → Instr) (loading : BaState) (cell : Memory → Nat → α) (val : Byte → α) : Prop :=
  ∀ (d : Byte) (s : State), Inv s → s.err = false → s.baState = loading →
    ∃ t, exec (push d) s = .next t ∧ CountsElement loading s t ∧ cell t.store s.loadPtr.toNat = val d ∧
      ∀ k, k ≠ s.loadPtr.toNat → cell t.store k = cell s.store k

theorem baPushByte_storesElement : StoresElement .baPushByte .loadBytes Memory.read id := by
  intro d s hi he hs
  obtain ⟨t, hexec, ht, hptr, hcell, hother⟩ := baPushByteStoresByte d s hi he hs
  exact ⟨t, hexec, ⟨by rw [ht], by rw [ht], by rw [ht], by rw [ht], by rw [ht], hptr, by rw [ht]⟩, hcell, hother⟩

/-- The bit of a storage at a bit index; of STORE it is `State.bitAt`. -/
def storeBit (m : Memory) (i : Nat) : Bool := (m.read (i / 8)).getLsbD (i % 8)

theorem storeBit_store (s : State) (i : Nat) : storeBit s.store i = s.bitAt i := rfl

theorem baPushChar_storesElement : StoresElement .baPushChar .loadStr storeBit (· == charOne) := by
  intro d s hi he hs
  obtain ⟨t, hexec, ht, hptr, hcell, hother, -⟩ := baPushCharWritesBit d s hi he hs
  exact ⟨t, hexec, ⟨by rw [ht], by rw [ht], by rw [ht], by rw [ht], by rw [ht], hptr, by rw [ht]⟩, hcell, hother⟩

/-- The engine `t` at the end of a construction whose sizes `s` holds. -/
structure Loaded (s t : State) : Prop where
  inv : Inv t
  endedWell : EndedWell t
  ready : t.baState = .ready
  dataSize : t.dataSize = s.dataSize
  allocBytes : t.allocBytes = s.allocBytes

/-- Pushing the elements `ds` that are still expected. -/
theorem run_pushes (hpush : StoresElement push loading cell val) (ds : List Byte) (s : State) (hi : Inv s)
    (he : s.err = false) (hin : s.hostIn = commandWords (ds.map push))
    (hlen : s.loadPtr.toNat + ds.length = s.loadLen.toNat)
    (hs : s.baState = if ds.length = 0 then .ready else loading) :
    ∃ t, core.run ds.length s = .next t ∧ Loaded s t ∧
      (∀ (k : Nat) (h : k < ds.length), cell t.store (s.loadPtr.toNat + k) = val ds[k]) ∧
      ∀ k, k < s.loadPtr.toNat → cell t.store k = cell s.store k := by
  induction ds generalizing s with
  | nil => exact ⟨s, rfl, ⟨hi, ⟨hin, he⟩, hs, rfl, rfl⟩, fun k h => absurd h (Nat.not_lt_zero k), fun _ _ => rfl⟩
  | cons d ds ih =>
    obtain ⟨u, hexec, hc, hcell, hother⟩ := hpush d _ (hi.withPort (commandWords (ds.map push)) s.hostOut) he hs
    have hstep := (step_commandWords hin).trans hexec
    have hptr : u.loadPtr.toNat = s.loadPtr.toNat + 1 := hc.loadPtr
    have hexpected : u.loadPtr.toNat + ds.length = u.loadLen.toNat := by
      rw [hptr, hc.loadLen, ← hlen, List.length_cons]
      omega
    have hstate : u.baState = if ds.length = 0 then .ready else loading := by
      have hlast : s.loadPtr.toNat + 1 = s.loadLen.toNat ↔ ds.length = 0 := by
        rw [← hlen, List.length_cons]
        omega
      rw [hc.baState]
      simp only [hlast]
    obtain ⟨t, hrun, hl, hnew, hold⟩ := ih u (hi.step hstep) (hc.err.trans he) hc.hostIn hexpected hstate
    refine ⟨t, (run_succ hstep).trans hrun,
      ⟨hl.inv, hl.endedWell, hl.ready, hl.dataSize.trans hc.dataSize, hl.allocBytes.trans hc.allocBytes⟩, ?_, ?_⟩
    · intro k hk
      cases k with
      | zero => exact (hold _ (by omega)).trans hcell
      | succ k =>
        rw [show s.loadPtr.toNat + (k + 1) = u.loadPtr.toNat + k by omega]
        exact hnew k (by simpa using hk)
    · intro k hk
      exact (hold k (by omega)).trans (hother k (Nat.ne_of_lt hk))

/-- A construction command and its pushes, given to a running engine with nothing else at its port. -/
theorem run_construction {new : Instr} (hpush : StoresElement push loading cell val) {ds : List Byte}
    (hds : ds.length < 65536) (hi : Inv s) (he : s.err = false) (hin : s.hostIn = []) {alloc bits : Nat}
    (hnew : Constructs new { s with hostIn := commandWords (ds.map push) } (BitVec.ofNat 16 ds.length)
      (if (BitVec.ofNat 16 ds.length).toNat = 0 then .ready else loading) alloc bits) :
    ∃ t, core.run (ds.length + 1) (s.give (new :: ds.map push)) = .next t ∧ EndedWell t ∧ t.baState = .ready ∧
      t.dataSize.toNat = bits ∧ t.allocBytes.toNat = alloc ∧ Inv t ∧
      ∀ (k : Nat) (h : k < ds.length), cell t.store k = val ds[k] := by
  have hlen : (BitVec.ofNat 16 ds.length).toNat = ds.length := Nat.mod_eq_of_lt hds
  have hgiven : (s.give (new :: ds.map push)).hostIn = commandWords (new :: ds.map push) := by
    rw [State.give, hin]
    rfl
  obtain ⟨u, hexec, hu, halloc, hbits, -⟩ := hnew
  have hstep : step (s.give (new :: ds.map push)) = .next u := (step_commandWords hgiven).trans hexec
  rw [hlen] at hu
  obtain ⟨t, hrun, hl, hcells, -⟩ := run_pushes hpush ds u
    ((hi.withPort (commandWords (ds.map push)) s.hostOut).exec hexec) (hu ▸ he) (hu ▸ rfl)
    (by rw [hu]; simp only [BitVec.toNat_ofNat, hlen]; omega) (hu ▸ rfl)
  refine ⟨t, (run_succ hstep).trans hrun, hl.endedWell, hl.ready, ?_, ?_, hl.inv, ?_⟩
  · rw [hl.dataSize, hbits]
  · rw [hl.allocBytes, halloc]
  · intro k hk
    have hzero : u.loadPtr.toNat = 0 := by rw [hu]; rfl
    have := hcells k hk
    rwa [hzero, Nat.zero_add] at this

end Sys2Proof.Machine

namespace Sys2Proof

open Machine

/-- Settles O59: BA_NEW_BYTES makes the array and each push stores its byte. -/
theorem bufferConstructionCopiesBytes : Obligations.BufferConstructionCopiesBytes := by
  intro ds s hi he hin hwf hfit
  have hcap := s.cfg.cap_le
  have hlen : (BitVec.ofNat 16 ds.length).toNat = ds.length := Nat.mod_eq_of_lt (by omega)
  have hnew := baNewBytesConstructs (BitVec.ofNat 16 ds.length)
    { s with hostIn := commandWords (ds.map .baPushByte) } he (hlen.symm ▸ hfit)
  obtain ⟨t, hrun, hended, hready, hbits, halloc, -, hcells⟩ :=
    run_construction baPushByte_storesElement (by omega) hi he hin hnew
  exact ⟨t, hrun, hended, hready, hlen ▸ hbits, hlen ▸ halloc, hcells⟩

/-- Settles O58: BA_NEW_STR makes the array, each push writes its bit, and BA_GET reads it. -/
theorem stringConstructionRoundTrip : Obligations.StringConstructionRoundTrip := by
  intro cs s hi he hin hwf hfit
  have hlt : cs.length < 65536 := Nat.lt_succ_of_le (of_decide_eq_true hwf)
  have hlen : (BitVec.ofNat 16 cs.length).toNat = cs.length := Nat.mod_eq_of_lt hlt
  have hnew := baNewStrConstructs (BitVec.ofNat 16 cs.length)
    { s with hostIn := commandWords (cs.map .baPushChar) } he (hlen.symm ▸ hfit)
  obtain ⟨t, hrun, hended, hready, hbits, -, hit, hcells⟩ :=
    run_construction baPushChar_storesElement hlt hi he hin hnew
  rw [hlen] at hbits
  refine ⟨t, hrun, hended, hready, hbits, fun i h => ?_⟩
  have hbit : t.bitAt i.toNat = (cs[i.toNat] == 0x31#8) := hcells i.toNat h
  have hget := (baGetXorReturnBit i false t hit hended.2 hready (hbits ▸ h)).1
  simpa [hbit] using hget

end Sys2Proof
end

section
/-! The host's loop over the iterator (spec/42_iterator.md R119): one time round reads the bit at the iterator and moves it
forward, so from any position the loop yields the bits that are left. -/

namespace Sys2Proof.Machine

/-- One time round the loop. -/
theorem traverse_succ {fuel : Nat} {s s₁ s₂ s₃ t : State} {vs : List Bool} (hend : exec .itAtEnd s = .next s₁)
    (hres : s₁.res ≠ 1#17) (hget : exec .itGet s₁ = .next s₂) (hnext : exec .itNext s₂ = .next s₃)
    (hrest : traverse fuel s₃ = some (vs, t)) : traverse (fuel + 1) s = some (s₂.res.getLsbD 0 :: vs, t) := by
  simp only [traverse, hend, if_neg hres, hget, hnext, hrest]

theorem boolValue_eq_one_iff (b : Bool) : boolValue b = 1#17 ↔ b = true := by
  cases b <;> decide

theorem boolValue_bit (b : Bool) : (boolValue b).getLsbD 0 = b := by
  cases b <;> rfl

/-- A READY array on a running engine, with the iterator at bit `i`. -/
structure IteratorAt (s : State) (i : Nat) : Prop where
  inv : Inv s
  err : s.err = false
  ready : s.baState = .ready
  valid : s.itValid = true
  index : s.itIndex = i

theorem IteratorAt.finish {s : State} {i : Nat} (h : IteratorAt s i) (v : Value) : IteratorAt (finish v s) i :=
  ⟨h.inv.of_record s.err s.errCode v s.hostIn _ (.inl ⟨rfl, rfl⟩), h.err, h.ready, h.valid, h.index⟩

theorem IteratorAt.exec_itAtEnd {s : State} {i : Nat} (h : IteratorAt s i) :
    exec .itAtEnd s = .next (Machine.finish (boolValue (decide (i = s.dataSize.toNat))) s) := by
  rw [exec_itAtEnd_valid h.err h.ready h.valid]
  simp only [itPos_eq_endPos, h.index]

theorem IteratorAt.exec_itGet {s : State} {i : Nat} (h : IteratorAt s i) (hi : i < s.dataSize.toNat) :
    exec .itGet s = .next (Machine.finish (boolValue (s.bitAt i)) s) := by
  obtain rfl := h.index
  exact Machine.exec_itGet h.err h.ready h.valid hi h.inv

theorem IteratorAt.exec_itNext {s : State} {i : Nat} (h : IteratorAt s i) (hi : i < s.dataSize.toNat) :
    ∃ t, exec .itNext s = .next t ∧ IteratorAt t (i + 1) ∧ t.store = s.store ∧ t.dataSize = s.dataSize := by
  obtain rfl := h.index
  have hexec := Machine.exec_itNext h.err h.ready h.valid (Nat.ne_of_lt hi)
  have hindex := advanceIterator_itIndex (h.inv.itByte_le h.valid)
  exact ⟨_, hexec, ⟨h.inv.exec hexec, h.err, h.ready, h.valid, hindex⟩, rfl, rfl⟩

/-- From bit `i` with `n` bits left the loop yields those bits and stops at End(). -/
theorem traverse_from {s : State} (n : Nat) {i : Nat} (h : IteratorAt s i) (hn : i + n = s.dataSize.toNat) :
    ∃ t, traverse (n + 1) s = some ((List.range' i n).map s.bitAt, t) ∧ IteratorAt t s.dataSize.toNat ∧
      t.store = s.store := by
  induction n generalizing s i with
  | zero =>
    rw [Nat.add_zero] at hn
    have hone : boolValue (decide (i = s.dataSize.toNat)) = 1#17 := by simp [boolValue_eq_one_iff, hn]
    refine ⟨finish (boolValue (decide (i = s.dataSize.toNat))) s, ?_, hn ▸ h.finish _, rfl⟩
    simp only [traverse, h.exec_itAtEnd]
    exact if_pos hone
  | succ n ih =>
    have hlt : i < s.dataSize.toNat := by omega
    have hres : boolValue (decide (i = s.dataSize.toNat)) ≠ 1#17 := by simp [boolValue_eq_one_iff, Nat.ne_of_lt hlt]
    have h₁ := h.finish (boolValue (decide (i = s.dataSize.toNat)))
    have h₂ := h₁.finish (boolValue (s.bitAt i))
    obtain ⟨u, hnext, hu, hustore, husize⟩ := h₂.exec_itNext hlt
    obtain ⟨t, hrest, ht, hstore⟩ := ih hu (by rw [husize, finish_dataSize, finish_dataSize]; omega)
    refine ⟨t, (traverse_succ h.exec_itAtEnd hres (h₁.exec_itGet hlt) hnext hrest).trans ?_, ?_, hstore.trans hustore⟩
    · have hbits : u.bitAt = s.bitAt := funext fun k => by rw [State.bitAt, State.byteAt, hustore]; rfl
      rw [List.range'_succ, List.map_cons, finish_res, boolValue_bit, hbits]
      rfl
    · rw [husize] at ht
      exact ht

end Sys2Proof.Machine

namespace Sys2Proof

open Machine

/-- Settles O60: IT_BEGIN puts the iterator at bit 0, and from there DATA_SIZE bits are left. -/
theorem iterationIsComplete : Obligations.IterationIsComplete := by
  intro s hi he hr
  have hbegin := exec_itBegin he hr
  have hstart : IteratorAt _ 0 := ⟨hi.exec hbegin, he, hr, rfl, rfl⟩
  obtain ⟨t, hloop, ht, hstore⟩ := traverse_from s.dataSize.toNat hstart (Nat.zero_add _)
  rw [← List.range_eq_range'] at hloop
  exact ⟨_, t, _, hbegin, hloop, rfl, ht.index, ht.err, ht.ready, hstore⟩

end Sys2Proof
end
